-- ==== Sys2Proof/Word.lean ====
section
/-! DEFINITION. The three widths of the machine: a register of the window (00_scope.md R7, REG_BITS), a byte of the
operand buffer (10_state.md R35), and a parameter register (R28, ELEM_BITS). -/

namespace Sys2Proof

/-- A register of the register window, a command word or an argument: 32 bits (10_state.md R16). -/
abbrev Word := BitVec 32

/-- A byte of the operand buffer (10_state.md R35). -/
abbrev Byte := BitVec 8

/-- P, Q or G: an unsigned integer in [0, 2^1024) (10_state.md R28). -/
abbrev Big := BitVec 1024

end Sys2Proof
end

