-- ==== Sys2Proof/Machine/Bytes.lean ====
section
/-! DEFINITION. Byte strings and bits: the primitives of 00_scope.md R11 and the bus lanes of 20_memory.md R46. -/

namespace Sys2Proof.Machine

/-- `be_int(s)`: the big-endian value, the byte at index 0 the most significant (00_scope.md R11). -/
def beInt (s : List Byte) : Nat := s.foldl (fun v b => v * 256 + b.toNat) 0

/-- `be_bytes(n, v)` for v < 256^n: the n-byte string whose big-endian value is v (00_scope.md R11). -/
def beBytes (n v : Nat) : List Byte :=
  (List.range n).map fun i => BitVec.ofNat 8 (v / 256 ^ (n - 1 - i))

/-- `xor(s, t)` of two strings of equal length (00_scope.md R11). -/
def xorBytes (s t : List Byte) : List Byte := List.zipWith (· ^^^ ·) s t

/-- `getbit(s, i)`: bits count from the most significant bit of each byte (00_scope.md R11). -/
def getbit (s : List Byte) (i : Nat) : Bool := (s.getD (i / 8) 0#8).getLsbD (7 - i % 8)

/-- A byte with bit k (k = 0 the least significant) replaced by b. -/
def putBit (x : Byte) (k : Nat) (b : Bool) : Byte :=
  if b then x ||| 1#8 <<< k else x &&& ~~~(1#8 <<< k)

/-- `setbit(s, i, b)`: s with bit i replaced by b (00_scope.md R11). -/
def setbit (s : List Byte) (i : Nat) (b : Bool) : List Byte :=
  s.set (i / 8) (putBit (s.getD (i / 8) 0#8) (7 - i % 8) b)

/-- The bytes that a bus word carries in an access of n bytes: the byte for the lowest offset is the least significant
(20_memory.md R46). -/
def laneBytes (n : Nat) (v : Word) : List Byte :=
  (List.range n).map fun i => v.extractLsb' (8 * i) 8

/-- The bus word of an access that reads these bytes, the one at the lowest offset first (20_memory.md R46). -/
def laneWord (bs : List Byte) : Word :=
  BitVec.ofNat 32 (bs.foldr (fun b v => v * 256 + b.toNat) 0)

end Sys2Proof.Machine
end

