-- ==== Sys2Proof/Config.lean ====
section
/-! DEFINITION. What an implementation or the platform fixes: the OPEN parameters of 00_scope.md R7 and of the table
"OPEN parameters" of 92_eei_decisions.md, and the two identification constants. No rule fixes an OPEN parameter's
value, so `Config.platform` has no body; each constraint the spec puts on a parameter holds by construction of the
accessor that reads it (log 4). -/

namespace Sys2Proof

/-- Where the two windows lie in the host's address space (20_memory.md R58): one above the other, so that they do not
overlap. -/
inductive WindowLayout where
  /-- The register window is 256-byte page number `page`; the buffer window begins `gap` 32-bit words above its end. -/
  | bufferAbove (page gap : Nat)
  /-- The buffer window begins at 32-bit word number `word`; the register window is the `gap`-th 256-byte page that
  begins at or above the buffer's end. -/
  | bufferBelow (word gap : Nat)
deriving DecidableEq, Repr, Inhabited

/-- The OPEN parameters, in a form in which every value is a legal one and every legal choice has a value. -/
structure Params where
  /-- The placing of the two windows (D2); read through `Params.regBase` and `Params.bufBase`. -/
  layout : WindowLayout
  /-- BUF_SIZE is 1024 plus four times this (D3); read through `Params.bufSize`. -/
  bufQuads : Fin 536870657
  /-- HASH_LEN is one more than this (D5); read through `Params.hashLen`. -/
  hashLenPred : Fin 255
  /-- The hash, before its length is brought to HASH_LEN (D5); read through `Params.kdfH`. -/
  hashRaw : List Byte → List Byte
  /-- IRQ_NUMBER: the interrupt-controller input that the IRQ line drives (D45). -/
  irqNumber : Nat
  /-- The priority of that input (D45). -/
  irqPriority : Nat
  /-- POR_READY: the duration of the power-on reset (D45); no rule of the engine reads it. -/
  porReady : Nat
deriving Inhabited

/-- BUF_SIZE: between 1024 and 2^31, a multiple of 4 (00_scope.md R7). -/
def Params.bufSize (c : Params) : Nat := 4 * c.bufQuads.val + 1024

/-- HASH_LEN: between 1 and 255 (00_scope.md R7). -/
def Params.hashLen (c : Params) : Nat := c.hashLenPred.val + 1

/-- KDF_H: a total function from byte strings to byte strings of length HASH_LEN (00_scope.md R7). Cutting or padding
`hashRaw` to that length leaves a function that already answers HASH_LEN bytes as it is. -/
def Params.kdfH (c : Params) (s : List Byte) : List Byte :=
  (c.hashRaw s ++ List.replicate c.hashLen 0#8).take c.hashLen

/-- BUF_BASE: a multiple of 4 (20_memory.md R58). -/
def Params.bufBase (c : Params) : Nat :=
  match c.layout with
  | .bufferAbove page gap => 256 * page + 256 + 4 * gap
  | .bufferBelow word _ => 4 * word

/-- REG_BASE: a multiple of 256, its window clear of the buffer window (20_memory.md R58). -/
def Params.regBase (c : Params) : Nat :=
  match c.layout with
  | .bufferAbove page _ => 256 * page
  | .bufferBelow word gap => 256 * ((4 * word + c.bufSize + 255) / 256 + gap)

/-- REG_WINDOW: the size of the register window in bytes (00_scope.md R7). -/
abbrev Config.regWindow : Nat := 256

/-- ELEM_BYTES: the byte width of every big-number operand (00_scope.md R7). -/
abbrev Config.elemBytes : Nat := 128

/-- ID_VALUE (10_state.md R17). -/
def Config.idValue : Word := 0x4F544C31#32

/-- VERSION_VALUE (10_state.md R18). -/
def Config.versionValue : Word := 0x00010000#32

/-- The parameters of the implementation at hand. The spec leaves them OPEN, so nothing is known of them but what
`Params` says: a statement about the machine holds whatever they are. -/
opaque Config.platform : Params

end Sys2Proof
end

