-- ==== Sys2Proof/Syntax.lean ====
section
/-! DEFINITION. The syntax of the machine: the 22 commands (30_encoding.md R70), the fields of a command word (R63), the
names of the register window (10_state.md R16), and what the host can put on the bus (20_memory.md R45 to R48). -/

namespace Sys2Proof

/-- The commands, one per row of the opcode table (30_encoding.md R70). A command has no operand in its word (R67): it
reads the latched arguments. -/
inductive Instr where
  | nop | ldp | ldq | ldg | stp | stq | stg | clr
  | modexp | modexpg | modmul | modinv | qrtest | gentest | paramchk | encode | decode
  | kdf | kdfxor
  | pack | transpose | matxor
deriving DecidableEq, Repr

/-- The two fields of a command word (30_encoding.md R63). -/
structure CommandWord where
  /-- Bits [31:8], which must be zero. -/
  mbz : BitVec 24
  /-- Bits [7:0], which select the command. -/
  opcode : BitVec 8
deriving DecidableEq, Repr

/-- The word slots of the register window, by name (10_state.md R16). -/
inductive Reg where
  | id | version | ctrl | status | cmd
  | arg0 | arg1 | arg2 | arg3 | arg4 | arg5
  | result | cmdcnt | bufsize | hashlen
  | reserved
deriving DecidableEq, Repr

/-- One host access: a read or a write of `width` bytes, named by its host address, or by its offset in the buffer window
(20_memory.md R46 to R48). An access named by an offset is one to the buffer window wherever the offset lies; one named
by an address is to the window the address lies in, or to neither (60_exceptions.md R127; log 16). The value written is
the bus word: a write of fewer than four bytes carries them in the low lanes. -/
inductive HostOp where
  | read (addr width : Nat)
  | write (addr width : Nat) (value : Word)
  | readBuf (off width : Nat)
  | writeBuf (off width : Nat) (value : Word)
deriving DecidableEq, Repr

/-- One step of the interleaving of 20_memory.md R59, and the platform's power-on reset (70_reset_and_hazards.md
R136). -/
inductive Event where
  /-- The host's next access. -/
  | host (op : HostOp)
  /-- The engine's step, *complete*. -/
  | complete
  /-- A power-on reset. -/
  | powerOn
deriving DecidableEq, Repr

/-- The error codes by name (60_exceptions.md R115). -/
inductive ErrCode where
  | illegalCmd | bounds | badModulus | notInvertible | length | dim | range | decode
deriving DecidableEq, Repr

end Sys2Proof
end

