-- ==== Sys2Proof/Machine/State.lean ====
section
/-! DEFINITION. The state of the machine (10_state.md R16, R44), the reasons a step can stop, and the state after reset
(70_reset_and_hazards.md R135). -/

namespace Sys2Proof.Machine

/-- The operand buffer Buf (10_state.md R35): the bytes that are not 0x00, by rising offset. An offset that is not
listed reads 0x00, the reset contents of R135, so two equal buffers are equal lists. -/
abbrev Memory := List Host.Cell

/-- ARG0 to ARG5 (10_state.md R22), or their latched copies (R39). -/
structure Args where
  a0 : Word
  a1 : Word
  a2 : Word
  a3 : Word
  a4 : Word
  a5 : Word
deriving DecidableEq, Repr

/-- The snapshot (Buf, P, Q, G) taken at accept (10_state.md R40). -/
structure Snapshot where
  buf : Memory
  p : Big
  q : Big
  g : Big
deriving DecidableEq, Repr

/-- The in-flight command record (10_state.md R38 to R40). -/
structure InFlight where
  /-- LCMD, the latched command word (R38). -/
  word : Word
  /-- The latched arguments (R39). -/
  args : Args
  /-- The snapshot (R40). -/
  snap : Snapshot
deriving DecidableEq, Repr

/-- What a command's pseudocode stages (10_state.md R41): byte writes in staging order, parameter-register writes, and
the RESULT value (0 if the command stages none, 60_exceptions.md R118). -/
structure Staged where
  writes : List (Nat × List Byte) := []
  p : Option Big := none
  q : Option Big := none
  g : Option Big := none
  result : Word := 0#32
deriving DecidableEq, Repr

/-- The machine's state (10_state.md R44). ID, VERSION, BUFSIZE and HASHLEN are configuration; BUSY and the IRQ line
are functions of the state (`State.busy`, `State.irq`). -/
structure State where
  /-- CTRL.IRQ_EN (R19). -/
  irqEn : Bool
  /-- STATUS.DONE (R20). -/
  done : Bool
  /-- STATUS.ERR (R20). -/
  err : Bool
  /-- STATUS.OVR (R20). -/
  ovr : Bool
  /-- STATUS.ERRCODE (R20). -/
  errcode : BitVec 8
  /-- CMD: the last accepted word (R21). -/
  cmd : Word
  /-- ARG0 to ARG5 (R22). -/
  args : Args
  /-- RESULT (R23). -/
  result : Word
  /-- CMDCNT (R24). -/
  cmdcnt : Word
  /-- P, the modulus (R29). -/
  p : Big
  /-- Q, the subgroup order (R30). -/
  q : Big
  /-- G, the generator (R31). -/
  g : Big
  /-- Buf, the operand buffer (R35). -/
  buf : Memory
  /-- The in-flight command record; present exactly while BUSY = 1 (R38 to R40, R44). -/
  inflight : Option InFlight
  /-- The model's own: the steps of the interleaving (20_memory.md R59) still to happen, the next one first (log 1). -/
  pending : List Event
  /-- The model's own: the bus word the latest host read of the engine returned (log 3). -/
  reply : Option Word
deriving DecidableEq, Repr

/-- The host faults of 60_exceptions.md R127, raised by `hostAccess`: the spec gives the access no meaning and asks a
model to refuse it, so the run stops. Each is safe: nothing is claimed of what the device does. -/
inductive Fault where
  /-- A register-window access that is not an aligned 32-bit one (20_memory.md R47). Safe. -/
  | registerAccess
  /-- A buffer-window access that breaks 20_memory.md R46: misaligned, a width other than 1, 2 or 4, or beyond the
  buffer's end (R48). Safe. -/
  | bufferAccess
  /-- A buffer-window access while STATUS.BUSY = 1 (70_reset_and_hazards.md R142). Safe. -/
  | bufferWhileBusy
deriving DecidableEq, Repr

/-- Why a step has no meaning. -/
inductive Refusal where
  /-- A command whose meaning is not written. No arm of `exec` raises it: every command has its meaning. Safe. -/
  | notModelled (mnemonic : String)
deriving DecidableEq, Repr

/-- The outcome of a step of this machine. -/
abbrev Outcome := Host.Outcome State Fault Refusal

/-- The machine right after reset: every piece of state at the value of 70_reset_and_hazards.md R135. The model's own
two fields begin empty (log 1, log 3). -/
def State.reset : State where
  irqEn := false
  done := false
  err := false
  ovr := false
  errcode := 0x00#8
  cmd := 0#32
  args := ⟨0#32, 0#32, 0#32, 0#32, 0#32, 0#32⟩
  result := 0#32
  cmdcnt := 0#32
  p := 0#1024
  q := 0#1024
  g := 0#1024
  buf := []
  inflight := none
  pending := []
  reply := none

end Sys2Proof.Machine
end

