-- ==== Sys2Proof/Machine/Flags.lean ====
section
/-! DEFINITION. The status and control registers and the IRQ line: the fields of CTRL and STATUS (10_state.md R19, R20),
the error codes (60_exceptions.md R115) and the interrupt (10_state.md R37). -/

namespace Sys2Proof.Machine

/-- The numeric error codes (60_exceptions.md R115). -/
def errCodeBits : ErrCode → BitVec 8
  | .illegalCmd => 0x01#8
  | .bounds => 0x02#8
  | .badModulus => 0x03#8
  | .notInvertible => 0x04#8
  | .length => 0x05#8
  | .dim => 0x06#8
  | .range => 0x07#8
  | .decode => 0x08#8

/-- STATUS.BUSY, the engine phase: a command is in flight (10_state.md R20, R36, R44). -/
def State.busy (s : State) : Bool := s.inflight.isSome

/-- The IRQ line: IRQ_EN and (DONE or ERR) (10_state.md R37). -/
def State.irq (s : State) : Bool := s.irqEn && (s.done || s.err)

/-- What a read of STATUS gives: BUSY, DONE, ERR, OVR in bits 0 to 3, ERRCODE in [15:8], the rest 0 (10_state.md
R20). -/
def State.statusWord (s : State) : Word :=
  0#16 ++ s.errcode ++ 0#4 ++ BitVec.ofBool s.ovr ++ BitVec.ofBool s.err ++ BitVec.ofBool s.done
    ++ BitVec.ofBool s.busy

/-- What a read of CTRL gives: IRQ_EN in bit 0, SOFT_RESET and the reserved bits 0 (10_state.md R19). -/
def State.ctrlWord (s : State) : Word := 0#31 ++ BitVec.ofBool s.irqEn

/-- A write to STATUS: a 1 clears DONE (bit 1), ERR with ERRCODE (bit 2) or OVR (bit 3); every other bit is ignored
(10_state.md R20, R27). It is how the host acknowledges a completion (60_exceptions.md R125). -/
def State.statusWrite (s : State) (v : Word) : State :=
  { s with
    done := s.done && !v.getLsbD 1
    err := s.err && !v.getLsbD 2
    errcode := if v.getLsbD 2 then 0x00#8 else s.errcode
    ovr := s.ovr && !v.getLsbD 3 }

end Sys2Proof.Machine
end

