-- ==== Sys2Proof/Machine/Ops.lean ====
section
/-! DEFINITION. The named operations: bytes of the operand buffer (10_state.md R35), and the life of a command, that is
accept, completion with results, completion with an error (this machine's exception), and reset (60_exceptions.md R116
to R118, 70_reset_and_hazards.md R135 to R138). -/

namespace Sys2Proof.Machine

/-! ### The operand buffer -/

/-- One byte of the buffer. An offset that is not listed reads 0x00 (70_reset_and_hazards.md R135). -/
def Memory.read : Memory → Nat → Byte
  | [], _ => 0#8
  | (k, b) :: m, a => if k = a then b else Memory.read m a

/-- `Buf[a] ‖ ... ‖ Buf[a+n-1]` (00_scope.md R11). -/
def Memory.readBytes (m : Memory) (a n : Nat) : List Byte :=
  (List.range n).map fun i => Memory.read m (a + i)

/-- The bytes of a string at the offsets from a on, in the canonical form: the zero bytes are not listed. -/
def cellsOf : Nat → List Byte → Memory
  | _, [] => []
  | a, b :: bs => if b = 0#8 then cellsOf (a + 1) bs else (a, b) :: cellsOf (a + 1) bs

/-- The buffer with the string bs stored at the offsets a, a+1, ... (20_memory.md R46, 00_scope.md R11). -/
def Memory.writeBytes (m : Memory) (a : Nat) (bs : List Byte) : Memory :=
  m.filter (fun x => x.1 < a) ++ cellsOf a bs ++ m.filter (fun x => a + bs.length ≤ x.1)

/-- The canonical form: offsets strictly rising, and no entry with the byte 0x00 that an unlisted offset reads as. -/
def Memory.wf (m : Memory) : Bool :=
  decide (m.Pairwise fun x y => x.1 < y.1) && m.all fun x => x.2 != 0#8

/-- Every listed offset lies below `size`. -/
def Memory.within (m : Memory) (size : Nat) : Bool := m.all fun x => decide (x.1 < size)

/-- The staged byte writes, in staging order: where two cover one byte the later one wins (20_memory.md R54). -/
def Memory.writeAll (m : Memory) (ws : List (Nat × List Byte)) : Memory :=
  ws.foldl (fun m w => Memory.writeBytes m w.1 w.2) m

/-! ### The life of a command -/

/-- The snapshot (Buf, P, Q, G) of the state as it stands (10_state.md R40). -/
def State.snapshot (s : State) : Snapshot := ⟨s.buf, s.p, s.q, s.g⟩

/-- Accept: what the host write of word w to CMD does while BUSY = 0 (60_exceptions.md R117). -/
def State.accept (s : State) (w : Word) : State :=
  { s with
    cmd := w
    inflight := some ⟨w, s.args, State.snapshot s⟩
    done := false
    err := false
    errcode := 0x00#8
    result := 0#32
    cmdcnt := s.cmdcnt + 1#32 }

/-- A command ends with an error: the one way this machine takes an exception. ERR and ERRCODE are set, the record is
dropped, nothing staged is committed (60_exceptions.md R118, R119). -/
def State.fail (s : State) (e : ErrCode) : State :=
  { s with err := true, errcode := errCodeBits e, inflight := none }

/-- A command ends without error: everything staged is committed and DONE is set, in one step (60_exceptions.md R118,
20_memory.md R57). -/
def State.commit (s : State) (st : Staged) : State :=
  { s with
    buf := Memory.writeAll s.buf st.writes
    p := st.p.getD s.p
    q := st.q.getD s.q
    g := st.g.getD s.g
    result := st.result
    done := true
    inflight := none }

/-- The end of a command whose pseudocode answered this outcome (60_exceptions.md R118). -/
def State.finish (s : State) : Except ErrCode Staged → State
  | .error e => State.fail s e
  | .ok st => State.commit s st

/-- The engine's step for a command with this pseudocode, run on the in-flight record. It is enabled exactly when
BUSY = 1 (60_exceptions.md R118); while IDLE the engine does nothing (R133). -/
def State.complete (s : State) (body : InFlight → Except ErrCode Staged) : State :=
  match s.inflight with
  | none => s
  | some f => State.finish s (body f)

/-- The engine's state after a reset, power-on or soft, whatever it was before; an in-flight command is dropped with no
effect (70_reset_and_hazards.md R135 to R138). What is left of the interleaving and the host's last read are not the
engine's. -/
def State.softReset (s : State) : State :=
  { State.reset with pending := s.pending, reply := s.reply }

/-- A write to CTRL: bit 1 performs a soft reset and then bit 0 is not looked at; otherwise bit 0 becomes IRQ_EN; the
reserved bits are ignored (10_state.md R19). -/
def State.ctrlWrite (s : State) (v : Word) : State :=
  if v.getLsbD 1 then State.softReset s else { s with irqEn := v.getLsbD 0 }

/-- A write to CMD: accept while BUSY = 0; while BUSY = 1 it is dropped and sets OVR (10_state.md R21, 60_exceptions.md
R121). -/
def State.cmdWrite (s : State) (w : Word) : State :=
  if State.busy s then { s with ovr := true } else State.accept s w

end Sys2Proof.Machine
end

