-- ==== Sys2Proof/Machine/Registers.lean ====
section
/-! DEFINITION. The register window: which register stands at an offset, what a read of it gives and what a write to it
does (10_state.md R16 to R27, 20_memory.md R56). -/

namespace Sys2Proof.Machine

/-- The register at a word-aligned offset of the window (10_state.md R16). -/
def regAt (off : Nat) : Reg :=
  match off / 4 with
  | 0 => .id
  | 1 => .version
  | 2 => .ctrl
  | 3 => .status
  | 4 => .cmd
  | 5 => .arg0
  | 6 => .arg1
  | 7 => .arg2
  | 8 => .arg3
  | 9 => .arg4
  | 10 => .arg5
  | 11 => .result
  | 12 => .cmdcnt
  | 13 => .bufsize
  | 14 => .hashlen
  | _ => .reserved

/-- The offset of a register by its name; the first of the reserved offsets for `reserved` (10_state.md R16). -/
def regOffset : Reg → Nat
  | .id => 0x00
  | .version => 0x04
  | .ctrl => 0x08
  | .status => 0x0C
  | .cmd => 0x10
  | .arg0 => 0x14
  | .arg1 => 0x18
  | .arg2 => 0x1C
  | .arg3 => 0x20
  | .arg4 => 0x24
  | .arg5 => 0x28
  | .result => 0x2C
  | .cmdcnt => 0x30
  | .bufsize => 0x34
  | .hashlen => 0x38
  | .reserved => 0x3C

/-- What a read of a register gives; it has no side effect (10_state.md R17 to R27, 20_memory.md R56). -/
def readReg (c : Params) (s : State) : Reg → Word
  | .id => Config.idValue
  | .version => Config.versionValue
  | .ctrl => State.ctrlWord s
  | .status => State.statusWord s
  | .cmd => s.cmd
  | .arg0 => s.args.a0
  | .arg1 => s.args.a1
  | .arg2 => s.args.a2
  | .arg3 => s.args.a3
  | .arg4 => s.args.a4
  | .arg5 => s.args.a5
  | .result => s.result
  | .cmdcnt => s.cmdcnt
  | .bufsize => BitVec.ofNat 32 c.bufSize
  | .hashlen => BitVec.ofNat 32 c.hashLen
  | .reserved => 0#32

/-- What a write to a register does; a write to a read-only or reserved one is ignored (10_state.md R17 to R27). -/
def writeReg (s : State) (r : Reg) (v : Word) : State :=
  match r with
  | .ctrl => State.ctrlWrite s v
  | .status => State.statusWrite s v
  | .cmd => State.cmdWrite s v
  | .arg0 => { s with args := { s.args with a0 := v } }
  | .arg1 => { s with args := { s.args with a1 := v } }
  | .arg2 => { s with args := { s.args with a2 := v } }
  | .arg3 => { s with args := { s.args with a3 := v } }
  | .arg4 => { s with args := { s.args with a4 := v } }
  | .arg5 => { s with args := { s.args with a5 := v } }
  | .id | .version | .result | .cmdcnt | .bufsize | .hashlen | .reserved => s

end Sys2Proof.Machine
end

