-- ==== Sys2Proof/WellFormed.lean ====
section
/-! DEFINITION. What the syntax must satisfy: a command word is legal (30_encoding.md R63, R71), and a host access has a
shape its window takes (20_memory.md R46, R47). A command itself has no operand in its word, so every term of `Instr`
is well formed. -/

namespace Sys2Proof

/-- MBZ = 0 (30_encoding.md R63). -/
def CommandWord.mbzZero (w : CommandWord) : Bool := w.mbz == 0#24

/-- The opcode lies in none of the ranges that 30_encoding.md R71 lists as illegal. -/
def CommandWord.opcodeAssigned (w : CommandWord) : Bool :=
  let o := w.opcode.toNat
  !(o == 0x04 || (0x09 ≤ o && o ≤ 0x0F) || o == 0x17 || (0x1A ≤ o && o ≤ 0x1F)
    || (0x22 ≤ o && o ≤ 0x2F) || (0x33 ≤ o && o ≤ 0x3F) || 0x40 ≤ o)

/-- A legal command word (30_encoding.md R63). -/
def CommandWord.wellFormed (w : CommandWord) : Bool := w.mbzZero && w.opcodeAssigned

/-- A register access is an aligned 32-bit one (20_memory.md R47); `off` is its offset in the window. -/
def registerShape (off width : Nat) : Bool := width == 4 && off % 4 == 0

/-- A buffer access has width 1, 2 or 4, is aligned to its width and lies in the buffer (20_memory.md R46). -/
def bufferShape (size off width : Nat) : Bool :=
  (width == 1 || width == 2 || width == 4) && off % width == 0 && decide (off + width ≤ size)

/-- Every command is well formed: it has no field. -/
def Instr.wellFormed (_ : Instr) : Bool := true

end Sys2Proof
end

