-- ==== Sys2Proof/Machine/Bus.lean ====
section
/-! DEFINITION. The host's accesses (20_memory.md R45 to R48, R56): which window an access reaches, the host faults of
60_exceptions.md R127, and the effect of an access that the spec gives a meaning. -/

namespace Sys2Proof.Machine

/-- Where a host access named by its address goes. -/
inductive Route where
  /-- An aligned 32-bit access at this offset of the register window. -/
  | register (off : Nat)
  /-- An access that begins at this offset of the buffer window. -/
  | buffer (off : Nat)
  /-- It touches neither window and does not reach the engine (60_exceptions.md R127). -/
  | outside
  /-- It touches the register window in a shape that is a host fault (20_memory.md R47). -/
  | badRegister
  /-- It begins below the buffer window and reaches into it (log 5). -/
  | badBuffer
deriving DecidableEq, Repr

/-- The access of `width` bytes at `addr` touches the window of `size` bytes at `base`. -/
def touches (addr width base size : Nat) : Bool :=
  decide (addr < base + size) && decide (base < addr + max width 1)

/-- The window an access reaches, by its address (20_memory.md R45, R58). -/
def route (c : Params) (addr width : Nat) : Route :=
  if touches addr width c.regBase Config.regWindow then
    if decide (c.regBase ≤ addr) && registerShape (addr - c.regBase) width then .register (addr - c.regBase)
    else .badRegister
  else if touches addr width c.bufBase c.bufSize then
    if c.bufBase ≤ addr then .buffer (addr - c.bufBase) else .badBuffer
  else .outside

/-- An access to the buffer window that breaks 20_memory.md R46 is a host fault (R48), and so is any while BUSY = 1
(70_reset_and_hazards.md R142); which of the two is named where both hold is log 5. -/
def bufferFault (c : Params) (off width : Nat) (s : State) : Option Fault :=
  if !bufferShape c.bufSize off width then some .bufferAccess
  else if State.busy s then some .bufferWhileBusy
  else none

/-- A read of `width` bytes at offset `off` of the buffer window (20_memory.md R46, R48). -/
def bufferRead (c : Params) (off width : Nat) (s : State) : Outcome :=
  match bufferFault c off width s with
  | some r => .fault r
  | none => .next { s with reply := some (laneWord (Memory.readBytes s.buf off width)) }

/-- A write of `width` bytes at offset `off` of the buffer window (20_memory.md R46, R48). -/
def bufferWrite (c : Params) (off width : Nat) (v : Word) (s : State) : Outcome :=
  match bufferFault c off width s with
  | some r => .fault r
  | none => .next { s with buf := Memory.writeBytes s.buf off (laneBytes width v) }

/-- A read of `width` bytes at `addr`: its only effect is the bus word it returns (20_memory.md R56). -/
def hostRead (c : Params) (addr width : Nat) (s : State) : Outcome :=
  match route c addr width with
  | .register off => .next { s with reply := some (readReg c s (regAt off)) }
  | .buffer off => bufferRead c off width s
  | .outside => .next s
  | .badRegister => .fault .registerAccess
  | .badBuffer => .fault .bufferAccess

/-- A write of `width` bytes at `addr` (20_memory.md R56). -/
def hostWrite (c : Params) (addr width : Nat) (v : Word) (s : State) : Outcome :=
  match route c addr width with
  | .register off => .next (writeReg s (regAt off) v)
  | .buffer off => bufferWrite c off width v s
  | .outside => .next s
  | .badRegister => .fault .registerAccess
  | .badBuffer => .fault .bufferAccess

/-- One host access, one step (20_memory.md R59). -/
def hostAccess (c : Params) (op : HostOp) (s : State) : Outcome :=
  match op with
  | .read addr width => hostRead c addr width s
  | .write addr width v => hostWrite c addr width v s
  | .readBuf off width => bufferRead c off width s
  | .writeBuf off width v => bufferWrite c off width v s

end Sys2Proof.Machine
end

