-- ==== Sys2Proof/Decode.lean ====
section
/-! DEFINITION. The decoder of command words (30_encoding.md R64, R70, R71) and, after it, the encoder. -/

namespace Sys2Proof

/-- Why a word is illegal (30_encoding.md R71). Both complete with ILLEGAL_CMD. -/
inductive DecodeError where
  /-- MBZ is not 0. -/
  | mbzNotZero
  /-- MBZ is 0 and the opcode is in no row of the opcode table. -/
  | reservedOpcode
deriving DecidableEq, Repr

/-- The opcode table: each row's word and its command (30_encoding.md R70). -/
def opcodeTable : List (Word × Instr) :=
  [(0x00000000#32, .nop), (0x00000001#32, .ldp), (0x00000002#32, .ldq), (0x00000003#32, .ldg),
   (0x00000005#32, .stp), (0x00000006#32, .stq), (0x00000007#32, .stg), (0x00000008#32, .clr),
   (0x00000010#32, .modexp), (0x00000011#32, .modexpg), (0x00000012#32, .modmul), (0x00000013#32, .modinv),
   (0x00000014#32, .qrtest), (0x00000015#32, .gentest), (0x00000016#32, .paramchk),
   (0x00000018#32, .encode), (0x00000019#32, .decode),
   (0x00000020#32, .kdf), (0x00000021#32, .kdfxor),
   (0x00000030#32, .pack), (0x00000031#32, .transpose), (0x00000032#32, .matxor)]

/-- The fields of a word (30_encoding.md R63). -/
def commandFields (w : Word) : CommandWord := ⟨w.extractLsb' 8 24, w.extractLsb' 0 8⟩

/-- `decode(w) = c` if w is the word of row c, ILLEGAL otherwise, and then by the name of what is wrong with it
(30_encoding.md R64). -/
def decode (w : Word) : Except DecodeError Instr :=
  match opcodeTable.lookup w with
  | some i => .ok i
  | none => if (commandFields w).mbzZero then .error .reservedOpcode else .error .mbzNotZero

/-- The instruction the decoder reads from an instruction of `nbits` bits. A command is one 32-bit word and has no other
length (30_encoding.md R65): bits above `nbits` are zero, and a value that needs more than 32 bits is no command. -/
def decodeTableWord (nbits w : Nat) : Option Instr :=
  if w % 2 ^ nbits < 2 ^ 32 then
    match decode (BitVec.ofNat 32 (w % 2 ^ nbits)) with
    | .ok i => some i
    | .error _ => none
  else none

/-- The opcode of a command (30_encoding.md R70, column OPCODE). -/
def opcodeOf : Instr → BitVec 8
  | .nop => 0x00#8
  | .ldp => 0x01#8
  | .ldq => 0x02#8
  | .ldg => 0x03#8
  | .stp => 0x05#8
  | .stq => 0x06#8
  | .stg => 0x07#8
  | .clr => 0x08#8
  | .modexp => 0x10#8
  | .modexpg => 0x11#8
  | .modmul => 0x12#8
  | .modinv => 0x13#8
  | .qrtest => 0x14#8
  | .gentest => 0x15#8
  | .paramchk => 0x16#8
  | .encode => 0x18#8
  | .decode => 0x19#8
  | .kdf => 0x20#8
  | .kdfxor => 0x21#8
  | .pack => 0x30#8
  | .transpose => 0x31#8
  | .matxor => 0x32#8

/-- The word whose fields are these (30_encoding.md R63). -/
def packFields (w : CommandWord) : Word := w.mbz ++ w.opcode

/-- Every legal command word is the opcode extended with zeros (30_encoding.md R70). -/
def encode (i : Instr) : Word := packFields ⟨0#24, opcodeOf i⟩

end Sys2Proof
end

