-- ==== Sys2Proof/Machine/BigNum.lean ====
section
/-! DEFINITION. The big-integer functions of 00_scope.md R10, in forms that evaluate on 1024-bit operands. The spec
leaves the internal algorithms open and fixes the results (93_implementation_defined.md); Laws/BigNum.lean proves each
result to be the one R10 gives. -/

namespace Sys2Proof.Machine

/-- `bitlen(v)`: the number of binary digits of v, with bitlen(0) = 0 (00_scope.md R10). -/
def bitLen (v : Nat) : Nat := if v = 0 then 0 else Nat.log2 v + 1

/-- Square and multiply, from the least significant bit of e: acc times b^e mod m, when the fuel covers e's bits. -/
def powLoop (m : Nat) : Nat → Nat → Nat → Nat → Nat
  | 0, _, _, acc => acc
  | n + 1, b, e, acc =>
    if e = 0 then acc
    else powLoop m n (b * b % m) (e / 2) (if e % 2 = 1 then acc * b % m else acc)

/-- `pow(b, e, m)` = b^e mod m, with pow(b, 0, m) = 1 mod m (00_scope.md R10). -/
def powMod (b e m : Nat) : Nat := powLoop m (bitLen e) (b % m) e (1 % m)

/-- Extended Euclid modulo m on the remainders r0, r1 and their coefficients t0, t1. -/
def invLoop (m : Nat) : Nat → Nat → Nat → Nat → Nat → Nat
  | 0, _, _, t0, _ => t0
  | n + 1, r0, r1, t0, t1 =>
    if r1 = 0 then t0
    else invLoop m n r1 (r0 % r1) t1 ((t0 + (m - r0 / r1 * t1 % m)) % m)

/-- `inv(a, m)`: the x in [1, m) with a*x mod m = 1, for gcd(a, m) = 1 and m > 1 (00_scope.md R10). -/
def invMod (a m : Nat) : Nat := invLoop m (2 * bitLen m) m (a % m) 0 1

end Sys2Proof.Machine
end

