-- ==== Sys2Proof/Machine/Operands.lean ====
section
/-! DEFINITION. How a command gets its operands and stages its results: latched arguments (30_encoding.md R66, R67),
ranges (20_memory.md R52), the snapshot (10_state.md R40), big numbers (30_encoding.md R68), the checks shared by a
family (41_modarith.md R87, 43_bitmatrix.md R109), and what a command's pseudocode answers. -/

namespace Sys2Proof.Machine

/-- What a command's pseudocode answers: the error it raises, or what it stages (00_scope.md R11). -/
abbrev Body := Except ErrCode Staged

/-- `ARG[0]`, an unsigned integer (30_encoding.md R67). -/
def InFlight.arg0 (f : InFlight) : Nat := f.args.a0.toNat
/-- `ARG[1]`, an unsigned integer (30_encoding.md R67). -/
def InFlight.arg1 (f : InFlight) : Nat := f.args.a1.toNat
/-- `ARG[2]`, an unsigned integer (30_encoding.md R67). -/
def InFlight.arg2 (f : InFlight) : Nat := f.args.a2.toNat
/-- `ARG[3]`, an unsigned integer (30_encoding.md R67). -/
def InFlight.arg3 (f : InFlight) : Nat := f.args.a3.toNat
/-- `ARG[4]`, an unsigned integer (30_encoding.md R67). -/
def InFlight.arg4 (f : InFlight) : Nat := f.args.a4.toNat
/-- `ARG[5]`, an unsigned integer (30_encoding.md R67). -/
def InFlight.arg5 (f : InFlight) : Nat := f.args.a5.toNat

/-- P of the snapshot, as an integer (41_modarith.md R87). -/
def InFlight.modulus (f : InFlight) : Nat := f.snap.p.toNat
/-- Q of the snapshot, as an integer. -/
def InFlight.order (f : InFlight) : Nat := f.snap.q.toNat
/-- G of the snapshot, as an integer. -/
def InFlight.generator (f : InFlight) : Nat := f.snap.g.toNat

/-- `InRange(a, n) := a + n <= BUF_SIZE`, without wrap (20_memory.md R52). -/
def inRange (c : Params) (a n : Nat) : Bool := decide (a + n ≤ c.bufSize)

/-- `MemRead(a, n)`: bytes of the snapshot (00_scope.md R11). -/
def InFlight.memRead (f : InFlight) (a n : Nat) : List Byte := Memory.readBytes f.snap.buf a n

/-- `Elem(a)`: the 128-byte big number at offset a of the snapshot (30_encoding.md R68). -/
def InFlight.elem (f : InFlight) (a : Nat) : Nat := beInt (InFlight.memRead f a Config.elemBytes)

/-- `if not ok then raise Error(e)`: the first check that fails decides the code (60_exceptions.md R118, R120). -/
def require (ok : Bool) (e : ErrCode) : Except ErrCode Unit := if ok then .ok () else .error e

/-- The modulus check CheckP: P is odd and P >= 3 (41_modarith.md R87); it answers P. -/
def checkModulus (f : InFlight) : Except ErrCode Nat := do
  require (InFlight.modulus f % 2 == 1 && decide (3 ≤ InFlight.modulus f)) .badModulus
  return InFlight.modulus f

/-- `h := (P - 1) div 2` (41_modarith.md R87). -/
def halfOf (P : Nat) : Nat := (P - 1) / 2

/-- The dimension check: ROWS = ARG[3] and COLS = ARG[4] are multiples of 8 (43_bitmatrix.md R109); it answers both. -/
def checkDims (f : InFlight) : Except ErrCode (Nat × Nat) := do
  require (InFlight.arg3 f % 8 == 0 && InFlight.arg4 f % 8 == 0) .dim
  return (InFlight.arg3 f, InFlight.arg4 f)

/-- `MemWrite(a, len(bs), bs)` (00_scope.md R11). -/
def stageBytes (a : Nat) (bs : List Byte) : Staged := { writes := [(a, bs)] }

/-- `MemWrite(a, 128, be_bytes(128, v))` (20_memory.md R49). -/
def stageElem (a v : Nat) : Staged := stageBytes a (beBytes Config.elemBytes v)

/-- `RESULT <- n` (00_scope.md R11). -/
def stageResult (n : Nat) : Staged := { result := BitVec.ofNat 32 n }

/-- `RESULT <- (if b then 1 else 0)` (41_modarith.md R92 to R94). -/
def stageTest (b : Bool) : Staged := stageResult (if b then 1 else 0)

/-- The completion step for a command with this pseudocode, on the implementation at hand (60_exceptions.md R118). -/
def completeWith (body : Params → InFlight → Body) (s : State) : Outcome :=
  .next (State.complete s (body Config.platform))

end Sys2Proof.Machine
end

