-- ==== Sys2Proof/Machine/BitMatrix.lean ====
section
/-! DEFINITION. Bit-matrix commands (43_bitmatrix.md R107 to R112): PACK, TRANSPOSE, MATXOR. Bits count MSB-first in each
byte (`getbit`, `setbit`). -/

namespace Sys2Proof.Machine

/-- PACK (43_bitmatrix.md R110): column k of the source lies k strides above column 0. -/
def runPack (c : Params) (f : InFlight) : Body := do
  let (R, C) ← checkDims f
  require (inRange c f.arg0 (R * C / 8)) .bounds
  require (C == 0 || inRange c (f.arg1 + (C - 1) * f.arg5) (R / 8)) .bounds
  return { writes := (List.range C).map fun k =>
          (f.arg0 + k * (R / 8), f.memRead (f.arg1 + k * f.arg5) (R / 8)) }
/-- PACK: its completion step. -/
def execPack (s : State) : Outcome := completeWith runPack s

/-- The inner loop of TRANSPOSE: row r of the output, bit by bit (43_bitmatrix.md R111). -/
def transposeRow (R C : Nat) (M out : List Byte) (r : Nat) : List Byte :=
  (List.range C).foldl (fun out c => setbit out (r * C + c) (getbit M (c * R + r))) out

/-- The double loop of TRANSPOSE, which is normative (43_bitmatrix.md R111, R114): from zero bytes, bit r*C + c of the
output becomes bit c*R + r of the input. -/
def transposeBytes (R C : Nat) (M : List Byte) : List Byte :=
  (List.range R).foldl (fun out r => transposeRow R C M out r) (List.replicate (R * C / 8) 0#8)

/-- TRANSPOSE (43_bitmatrix.md R111). -/
def runTranspose (c : Params) (f : InFlight) : Body := do
  let (R, C) ← checkDims f
  require (inRange c f.arg0 (R * C / 8)) .bounds
  return (stageBytes f.arg0 (transposeBytes R C (f.memRead f.arg0 (R * C / 8))))
/-- TRANSPOSE: its completion step. -/
def execTranspose (s : State) : Outcome := completeWith runTranspose s

/-- The vector V XORed into each of C columns of rb bytes (43_bitmatrix.md R112). -/
def xorColumns (C rb : Nat) (M V : List Byte) : List Byte :=
  (List.range C).flatMap fun k => xorBytes ((M.drop (k * rb)).take rb) V

/-- MATXOR (43_bitmatrix.md R112). -/
def runMatxor (c : Params) (f : InFlight) : Body := do
  let (R, C) ← checkDims f
  require (inRange c f.arg0 (R * C / 8) && inRange c f.arg1 (R / 8)) .bounds
  return (stageBytes f.arg0
    (xorColumns C (R / 8) (f.memRead f.arg0 (R * C / 8)) (f.memRead f.arg1 (R / 8))))
/-- MATXOR: its completion step. -/
def execMatxor (s : State) : Outcome := completeWith runMatxor s

end Sys2Proof.Machine
end

