-- ==== Sys2Proof/Machine/Control.lean ====
section
/-! DEFINITION. Control and parameter commands (40_control.md R79 to R86): NOP, LDP, LDQ, LDG, STP, STQ, STG, CLR. For
each command its pseudocode (`run…`) and its completion step (`exec…`). -/

namespace Sys2Proof.Machine

/-- NOP (40_control.md R79). -/
def runNop (_ : Params) (_ : InFlight) : Body := return {}
/-- NOP: its completion step. -/
def execNop (s : State) : Outcome := completeWith runNop s

/-- LDP (40_control.md R80). -/
def runLdp (c : Params) (f : InFlight) : Body := do
  require (inRange c f.arg1 128) .bounds
  return { p := some (BitVec.ofNat 1024 (f.elem f.arg1)) }
/-- LDP: its completion step. -/
def execLdp (s : State) : Outcome := completeWith runLdp s

/-- LDQ (40_control.md R81). -/
def runLdq (c : Params) (f : InFlight) : Body := do
  require (inRange c f.arg1 128) .bounds
  return { q := some (BitVec.ofNat 1024 (f.elem f.arg1)) }
/-- LDQ: its completion step. -/
def execLdq (s : State) : Outcome := completeWith runLdq s

/-- LDG (40_control.md R82). -/
def runLdg (c : Params) (f : InFlight) : Body := do
  require (inRange c f.arg1 128) .bounds
  return { g := some (BitVec.ofNat 1024 (f.elem f.arg1)) }
/-- LDG: its completion step. -/
def execLdg (s : State) : Outcome := completeWith runLdg s

/-- STP (40_control.md R83). -/
def runStp (c : Params) (f : InFlight) : Body := do
  require (inRange c f.arg0 128) .bounds
  return (stageElem f.arg0 f.modulus)
/-- STP: its completion step. -/
def execStp (s : State) : Outcome := completeWith runStp s

/-- STQ (40_control.md R84). -/
def runStq (c : Params) (f : InFlight) : Body := do
  require (inRange c f.arg0 128) .bounds
  return (stageElem f.arg0 f.order)
/-- STQ: its completion step. -/
def execStq (s : State) : Outcome := completeWith runStq s

/-- STG (40_control.md R85). -/
def runStg (c : Params) (f : InFlight) : Body := do
  require (inRange c f.arg0 128) .bounds
  return (stageElem f.arg0 f.generator)
/-- STG: its completion step. -/
def execStg (s : State) : Outcome := completeWith runStg s

/-- CLR (40_control.md R86). -/
def runClr (c : Params) (f : InFlight) : Body := do
  require (inRange c f.arg0 f.arg3) .bounds
  return (stageBytes f.arg0 (List.replicate f.arg3 0#8))
/-- CLR: its completion step. -/
def execClr (s : State) : Outcome := completeWith runClr s

end Sys2Proof.Machine
end

