-- ==== Sys2Proof/Machine/Kdf.lean ====
section
/-! DEFINITION. Key-derivation commands (42_kdf.md R101 to R103): the pad function, KDF and KDFXOR. -/

namespace Sys2Proof.Machine

/-- `n` successive blocks of the hash chain, from block `blk` on (42_kdf.md R101). -/
def hashChain (H : List Byte → List Byte) : Nat → List Byte → List Byte
  | 0, _ => []
  | n + 1, blk => blk ++ hashChain H n (H blk)

/-- `KdfPad(L, ds, seed)`: block 0 is H of the separator, 4 bytes big-endian, before the seed; block i > 0 is H of block
i - 1; there are ceil(L / HASH_LEN) blocks, cut to L bytes (42_kdf.md R101, 90_conflicts.md C1). -/
def kdfPad (c : Params) (L : Nat) (ds : Word) (seed : List Byte) : List Byte :=
  (hashChain c.kdfH ((L + c.hashLen - 1) / c.hashLen) (c.kdfH (beBytes 4 ds.toNat ++ seed))).take L

/-- KDF (42_kdf.md R102). -/
def runKdf (c : Params) (f : InFlight) : Body := do
  require (inRange c f.arg1 f.arg5 && inRange c f.arg0 f.arg3) .bounds
  return (stageBytes f.arg0 (kdfPad c f.arg3 f.args.a4 (f.memRead f.arg1 f.arg5)))
/-- KDF: its completion step. -/
def execKdf (s : State) : Outcome := completeWith runKdf s

/-- KDFXOR (42_kdf.md R103). -/
def runKdfxor (c : Params) (f : InFlight) : Body := do
  require (inRange c f.arg1 f.arg5 && inRange c f.arg0 f.arg3 && inRange c f.arg2 f.arg3) .bounds
  return (stageBytes f.arg0
    (xorBytes (kdfPad c f.arg3 f.args.a4 (f.memRead f.arg1 f.arg5)) (f.memRead f.arg2 f.arg3)))
/-- KDFXOR: its completion step. -/
def execKdfxor (s : State) : Outcome := completeWith runKdfxor s

end Sys2Proof.Machine
end

