-- ==== Sys2Proof/Machine/ModArith.lean ====
section
/-! DEFINITION. Modular arithmetic commands (41_modarith.md R87 to R96): MODEXP, MODEXPG, MODMUL, MODINV, QRTEST,
GENTEST, PARAMCHK, ENCODE, DECODE. For each command its pseudocode (`run…`) and its completion step (`exec…`). -/

namespace Sys2Proof.Machine

/-- MODEXP (41_modarith.md R88): the exponent is used whole. -/
def runModexp (c : Params) (f : InFlight) : Body := do
  let P ← checkModulus f
  require (inRange c f.arg1 128 && inRange c f.arg2 128 && inRange c f.arg0 128) .bounds
  return (stageElem f.arg0 (powMod (f.elem f.arg1 % P) (f.elem f.arg2) P))
/-- MODEXP: its completion step. -/
def execModexp (s : State) : Outcome := completeWith runModexp s

/-- MODEXPG (41_modarith.md R89). -/
def runModexpg (c : Params) (f : InFlight) : Body := do
  let P ← checkModulus f
  require (inRange c f.arg2 128 && inRange c f.arg0 128) .bounds
  return (stageElem f.arg0 (powMod (f.generator % P) (f.elem f.arg2) P))
/-- MODEXPG: its completion step. -/
def execModexpg (s : State) : Outcome := completeWith runModexpg s

/-- MODMUL (41_modarith.md R90): the product is exact before the reduction. -/
def runModmul (c : Params) (f : InFlight) : Body := do
  let P ← checkModulus f
  require (inRange c f.arg1 128 && inRange c f.arg2 128 && inRange c f.arg0 128) .bounds
  return (stageElem f.arg0 (f.elem f.arg1 * f.elem f.arg2 % P))
/-- MODMUL: its completion step. -/
def execModmul (s : State) : Outcome := completeWith runModmul s

/-- MODINV (41_modarith.md R91). -/
def runModinv (c : Params) (f : InFlight) : Body := do
  let P ← checkModulus f
  require (inRange c f.arg1 128 && inRange c f.arg0 128) .bounds
  require (Nat.gcd (f.elem f.arg1 % P) P == 1) .notInvertible
  return (stageElem f.arg0 (invMod (f.elem f.arg1 % P) P))
/-- MODINV: its completion step. -/
def execModinv (s : State) : Outcome := completeWith runModinv s

/-- QRTEST (41_modarith.md R92): Euler's criterion. -/
def runQrtest (c : Params) (f : InFlight) : Body := do
  let P ← checkModulus f
  require (inRange c f.arg1 128) .bounds
  return (stageTest (powMod (f.elem f.arg1 % P) (halfOf P) P == 1))
/-- QRTEST: its completion step. -/
def execQrtest (s : State) : Outcome := completeWith runQrtest s

/-- GENTEST (41_modarith.md R93): the source's predicate, literally (90_conflicts.md C3). -/
def runGentest (c : Params) (f : InFlight) : Body := do
  let P ← checkModulus f
  require (inRange c f.arg1 128) .bounds
  return (stageTest (powMod (f.elem f.arg1 % P) (halfOf P) P == P - 1))
/-- GENTEST: its completion step. -/
def execGentest (s : State) : Outcome := completeWith runGentest s

/-- PARAMCHK (41_modarith.md R94). -/
def runParamchk (_ : Params) (f : InFlight) : Body := do
  let P ← checkModulus f
  return (stageTest (powMod (f.generator % P) f.order P == 1))
/-- PARAMCHK: its completion step. -/
def execParamchk (s : State) : Outcome := completeWith runParamchk s

/-- ENCODE's value before the negation: a leading 1 bit above the n message bytes (41_modarith.md R95). -/
def markedMessage (msg : List Byte) : Nat := 2 ^ (8 * msg.length) + beInt msg

/-- ENCODE (41_modarith.md R95). -/
def runEncode (c : Params) (f : InFlight) : Body := do
  let P ← checkModulus f
  require (decide (f.arg3 < 128)) .length
  require (inRange c f.arg1 f.arg3 && inRange c f.arg0 128) .bounds
  let m := markedMessage (f.memRead f.arg1 f.arg3)
  require (decide (m ≤ halfOf P)) .range
  return (stageElem f.arg0 (if powMod m (halfOf P) P == 1 then m else P - m))
/-- ENCODE: its completion step. -/
def execEncode (s : State) : Outcome := completeWith runEncode s

/-- DECODE's fold: `if e > h then e := P - e` (41_modarith.md R96). -/
def foldElem (P e : Nat) : Nat := if halfOf P < e then P - e else e

/-- DECODE once the element is folded: strip the top set bit, which must stand at a multiple of 8
(41_modarith.md R96). -/
def decodeFolded (c : Params) (dst e : Nat) : Body := do
  require (e != 0) .decode
  let k := bitLen e - 1
  require (k % 8 == 0) .decode
  let n := k / 8
  require (inRange c dst n) .bounds
  return { writes := [(dst, beBytes n (e - 2 ^ k))], result := BitVec.ofNat 32 n }

/-- DECODE (41_modarith.md R96). -/
def runDecode (c : Params) (f : InFlight) : Body := do
  let P ← checkModulus f
  require (inRange c f.arg1 128) .bounds
  require (decide (f.elem f.arg1 < P)) .range
  decodeFolded c f.arg0 (foldElem P (f.elem f.arg1))
/-- DECODE: its completion step. -/
def execDecode (s : State) : Outcome := completeWith runDecode s

end Sys2Proof.Machine
end

