-- ==== Sys2Proof/Machine/Dispatch.lean ====
section
/-! DEFINITION. The completion step of each command (60_exceptions.md R118), one arm per command. -/

namespace Sys2Proof.Machine

def exec (i : Instr) (s : State) : Host.Outcome State Fault Refusal :=
  match i with
  | .nop => Sys2Proof.Machine.execNop s
  | .ldp => Sys2Proof.Machine.execLdp s
  | .ldq => Sys2Proof.Machine.execLdq s
  | .ldg => Sys2Proof.Machine.execLdg s
  | .stp => Sys2Proof.Machine.execStp s
  | .stq => Sys2Proof.Machine.execStq s
  | .stg => Sys2Proof.Machine.execStg s
  | .clr => Sys2Proof.Machine.execClr s
  | .modexp => Sys2Proof.Machine.execModexp s
  | .modexpg => Sys2Proof.Machine.execModexpg s
  | .modmul => Sys2Proof.Machine.execModmul s
  | .modinv => Sys2Proof.Machine.execModinv s
  | .qrtest => Sys2Proof.Machine.execQrtest s
  | .gentest => Sys2Proof.Machine.execGentest s
  | .paramchk => Sys2Proof.Machine.execParamchk s
  | .encode => Sys2Proof.Machine.execEncode s
  | .decode => Sys2Proof.Machine.execDecode s
  | .kdf => Sys2Proof.Machine.execKdf s
  | .kdfxor => Sys2Proof.Machine.execKdfxor s
  | .pack => Sys2Proof.Machine.execPack s
  | .transpose => Sys2Proof.Machine.execTranspose s
  | .matxor => Sys2Proof.Machine.execMatxor s

end Sys2Proof.Machine
end

