-- ==== Sys2Proof/Machine/Engine.lean ====
section
/-! DEFINITION. The engine's own step (60_exceptions.md R118): it decodes the latched command word and ends the command.
The engine fetches nothing from memory (10_state.md R33): the in-flight record is where its next command stands. -/

namespace Sys2Proof.Machine

/-- `c := decode(LCMD)`; no command while IDLE (60_exceptions.md R118). -/
def fetched (s : State) : Option (Except DecodeError Instr) :=
  match s.inflight with
  | none => none
  | some f => some (decode f.word)

/-- An illegal word completes with ILLEGAL_CMD and has no other effect (30_encoding.md R64, R71). -/
def completeIllegal (s : State) : Outcome := .next (State.complete s fun _ => .error .illegalCmd)

/-- The engine's step: enabled exactly while BUSY = 1 (60_exceptions.md R118); while IDLE it does nothing (R133). -/
def engineStep (s : State) : Outcome :=
  match fetched s with
  | none => .next s
  | some (.ok i) => exec i s
  | some (.error _) => completeIllegal s

/-- The state in which w has just been accepted and the engine's completion is the next event (60_exceptions.md
R117). -/
def loadCommand (s : State) (w : Word) : State :=
  { State.accept s w with pending := .complete :: s.pending }

end Sys2Proof.Machine
end

