-- ==== Sys2Proof/Machine/Step.lean ====
section
/-! DEFINITION. One step of the system (10_state.md R15, 20_memory.md R59): the next event of the interleaving happens.
When nothing is left of the interleaving the engine's step happens, so an accepted command completes (60_exceptions.md
R134). -/

namespace Sys2Proof.Machine

/-- One step of the machine. -/
def step (s : State) : Host.Outcome State Fault Refusal :=
  match s.pending with
  | [] => engineStep s
  | .complete :: rest => engineStep { s with pending := rest }
  | .host op :: rest => hostAccess Config.platform op { s with pending := rest }
  | .powerOn :: rest => .next (State.softReset { s with pending := rest })

/-- The state s with the command word of bits w where the engine finds its next command: accepted, as by the host's
write to CMD, and its completion next (log 7). A word has 32 bits; the bits above `nbits` are zero. -/
def State.withFetchWord (s : State) (nbits w : Nat) : State :=
  loadCommand s (BitVec.ofNat 32 (w % 2 ^ nbits))

end Sys2Proof.Machine
end

