-- ==== Sys2Proof/Machine/Roles.lean ====
section
/-! DEFINITION. The argument roles (30_encoding.md R66): which latched arguments a command reads, and under which role
name. -/

namespace Sys2Proof.Machine

/-- The argument registers (10_state.md R22). -/
inductive ArgName where
  | arg0 | arg1 | arg2 | arg3 | arg4 | arg5
deriving DecidableEq, Repr

/-- The role names (30_encoding.md R66). -/
inductive Role where
  | dst | src | base | exp | a | b | msg | elem | seed | data | mat | vec
  | len | seedlen | rows | cols | stride | ds
deriving DecidableEq, Repr

/-- The value of an argument. -/
def argValue (x : Args) : ArgName → Word
  | .arg0 => x.a0
  | .arg1 => x.a1
  | .arg2 => x.a2
  | .arg3 => x.a3
  | .arg4 => x.a4
  | .arg5 => x.a5

/-- The register of the window that holds an argument. -/
def argReg : ArgName → Reg
  | .arg0 => .arg0
  | .arg1 => .arg1
  | .arg2 => .arg2
  | .arg3 => .arg3
  | .arg4 => .arg4
  | .arg5 => .arg5

/-- The arguments a command reads, by role (30_encoding.md R66); it ignores the rest (R74). -/
def argRoles : Instr → List (Role × ArgName)
  | .nop | .paramchk => []
  | .ldp | .ldq | .ldg => [(.src, .arg1)]
  | .stp | .stq | .stg => [(.dst, .arg0)]
  | .clr => [(.dst, .arg0), (.len, .arg3)]
  | .modexp => [(.dst, .arg0), (.base, .arg1), (.exp, .arg2)]
  | .modexpg => [(.dst, .arg0), (.exp, .arg2)]
  | .modmul => [(.dst, .arg0), (.a, .arg1), (.b, .arg2)]
  | .modinv => [(.dst, .arg0), (.a, .arg1)]
  | .qrtest | .gentest => [(.a, .arg1)]
  | .encode => [(.dst, .arg0), (.msg, .arg1), (.len, .arg3)]
  | .decode => [(.dst, .arg0), (.elem, .arg1)]
  | .kdf => [(.dst, .arg0), (.seed, .arg1), (.len, .arg3), (.ds, .arg4), (.seedlen, .arg5)]
  | .kdfxor =>
    [(.dst, .arg0), (.seed, .arg1), (.data, .arg2), (.len, .arg3), (.ds, .arg4), (.seedlen, .arg5)]
  | .pack => [(.dst, .arg0), (.src, .arg1), (.rows, .arg3), (.cols, .arg4), (.stride, .arg5)]
  | .transpose => [(.mat, .arg0), (.rows, .arg3), (.cols, .arg4)]
  | .matxor => [(.mat, .arg0), (.vec, .arg1), (.rows, .arg3), (.cols, .arg4)]

/-- The role is a buffer offset (30_encoding.md R66), which a listing shows in hexadecimal (R78). -/
def Role.isOffset : Role → Bool
  | .len | .seedlen | .rows | .cols | .stride | .ds => false
  | .dst | .src | .base | .exp | .a | .b | .msg | .elem | .seed | .data | .mat | .vec => true

end Sys2Proof.Machine
end

