-- ==== Sys2Proof/Safety.lean ====
section
/-! DEFINITION. The terms in which statements speak of safe runs: the invariant of the state, what a command's end
leaves alone, and which event comes next. -/

namespace Sys2Proof.Machine

/-- What every state of the machine satisfies. -/
structure State.Inv (s : State) : Prop where
  /-- The buffer is in its canonical form. -/
  bufWf : Memory.wf s.buf = true
  /-- Buf has BUF_SIZE bytes (10_state.md R35). -/
  bufWithin : Memory.within s.buf Config.platform.bufSize = true
  /-- DONE and ERR are never both 1 (10_state.md R20). -/
  doneErr : ¬ (s.done = true ∧ s.err = true)
  /-- ERRCODE is 0 when ERR = 0 (10_state.md R20). -/
  errcodeZero : s.err = false → s.errcode = 0x00#8
  /-- ERRCODE is one of the codes 1 to 8 when ERR = 1; the reserved codes are never produced (60_exceptions.md R115). -/
  errcodeKnown : s.err = true → 1 ≤ s.errcode.toNat ∧ s.errcode.toNat ≤ 8
  /-- RESULT is at most 127, and 0 after an error (10_state.md R23). -/
  resultSmall : s.result.toNat ≤ 127 ∧ (s.err = true → s.result = 0#32)
  /-- While a command is in flight CMD reads its word, Buf, P, Q and G are as at accept, and DONE, ERR and RESULT are
  0 (60_exceptions.md R117, 70_reset_and_hazards.md R143). -/
  flight : ∀ f, s.inflight = some f →
    f.word = s.cmd ∧ f.snap = State.snapshot s ∧ s.done = false ∧ s.err = false ∧ s.result = 0#32

/-- From s to t a command ended without error, and no register that the host alone writes changed: DONE is set, the
record is gone (60_exceptions.md R118, 10_state.md R22). -/
structure EndedDone (s t : State) : Prop where
  done : t.done = true
  inflight : t.inflight = none
  irqEn : t.irqEn = s.irqEn
  err : t.err = s.err
  errcode : t.errcode = s.errcode
  ovr : t.ovr = s.ovr
  cmd : t.cmd = s.cmd
  args : t.args = s.args
  cmdcnt : t.cmdcnt = s.cmdcnt
  pending : t.pending = s.pending
  reply : t.reply = s.reply

/-- P, Q and G are as they were. -/
structure ParamsKept (s t : State) : Prop where
  p : t.p = s.p
  q : t.q = s.q
  g : t.g = s.g

/-- Every byte of the buffer outside the n bytes at offset a is as it was. -/
def BytesKeptOutside (s t : State) (a n : Nat) : Prop :=
  ∀ x, (x < a ∨ a + n ≤ x) → Memory.read t.buf x = Memory.read s.buf x

/-- Every byte of the buffer is as it was. -/
def BytesKept (s t : State) : Prop := ∀ x, Memory.read t.buf x = Memory.read s.buf x

/-- The state after a command's end with this error code and no other effect (60_exceptions.md R118, R119). -/
def endedWithError (s : State) (code : BitVec 8) : State :=
  { s with err := true, errcode := code, inflight := none }

/-- From s to t a command ended without error, with this RESULT, having written the n bytes of the buffer at offset a
and no other, and neither P, Q nor G. -/
structure WroteBytes (s t : State) (result : Word) (a n : Nat) : Prop where
  ended : EndedDone s t
  params : ParamsKept s t
  result : t.result = result
  bytes : BytesKeptOutside s t a n

/-- From s to t a command ended without error, with this RESULT, having written no byte of the buffer and neither P, Q
nor G. -/
structure WroteResult (s t : State) (result : Word) : Prop where
  ended : EndedDone s t
  params : ParamsKept s t
  result : t.result = result
  bytes : BytesKept s t

/-- The range of n bytes at offset a lies in the operand buffer (20_memory.md R52). -/
abbrev Fits (a n : Nat) : Prop := a + n ≤ Config.platform.bufSize

/-- The modulus of the snapshot is odd and at least 3 (41_modarith.md R87). -/
abbrev GoodModulus (f : InFlight) : Prop := f.modulus % 2 = 1 ∧ 3 ≤ f.modulus

/-- ROWS and COLS are multiples of 8 (43_bitmatrix.md R109). -/
abbrev GoodDims (f : InFlight) : Prop := f.arg3 % 8 = 0 ∧ f.arg4 % 8 = 0

/-- The opcodes that 30_encoding.md R71 lists as illegal. -/
abbrev ReservedOpcode (o : Nat) : Prop :=
  o = 0x04 ∨ (0x09 ≤ o ∧ o ≤ 0x0F) ∨ o = 0x17 ∨ (0x1A ≤ o ∧ o ≤ 0x1F) ∨ (0x22 ≤ o ∧ o ≤ 0x2F)
    ∨ (0x33 ≤ o ∧ o ≤ 0x3F) ∨ (0x40 ≤ o ∧ o ≤ 0xFF)

/-- The offsets of ARG0 to ARG5 in the register window (10_state.md R22). -/
def argOffset : ArgName → Nat
  | .arg0 => 0x14
  | .arg1 => 0x18
  | .arg2 => 0x1C
  | .arg3 => 0x20
  | .arg4 => 0x24
  | .arg5 => 0x28

/-- The 128 bytes of a buffer at offset a, as a big-endian number (20_memory.md R49). -/
def elemAt (m : Memory) (a : Nat) : Nat := beInt (Memory.readBytes m a 128)

/-- The next event is the engine's step, or nothing is left of the interleaving but that step; `rest` is what is left
after it (20_memory.md R59, 60_exceptions.md R134; log 1). -/
def EngineNext (s : State) (rest : List Event) : Prop :=
  s.pending = .complete :: rest ∨ (s.pending = [] ∧ rest = [])

/-- The next event is the host's 32-bit write of v to the register at this offset of the window. -/
def HostWrites (s : State) (off : Nat) (v : Word) (rest : List Event) : Prop :=
  s.pending = .host (.write (Config.platform.regBase + off) 4 v) :: rest

/-- The next event is the host's 32-bit read of the register at this offset of the window. -/
def HostReads (s : State) (off : Nat) (rest : List Event) : Prop :=
  s.pending = .host (.read (Config.platform.regBase + off) 4) :: rest

end Sys2Proof.Machine
end

