-- ==== Sys2Proof/Certificates/Slice0/Obligations.lean ====
section
/-! DEFINITION. The statements for the provers. Each docstring says which rule of spec/ the statement formalises. What a
statement says of `pending` and `reply`, how an event is taken off the interleaving and where a read's value is kept, is
the model's own form of 20_memory.md R59 and R46 (logs 1 and 3). -/

open Sys2Proof Sys2Proof.Machine

/-! ### Command words -/

/-- 30_encoding.md R70: the opcode table, row by row, and every legal word is its opcode extended with zeros. -/
def Obligations.OpcodeTableDecodes : Prop :=
  (decode 0x00000000#32 = .ok .nop ∧ decode 0x00000001#32 = .ok .ldp ∧ decode 0x00000002#32 = .ok .ldq
    ∧ decode 0x00000003#32 = .ok .ldg ∧ decode 0x00000005#32 = .ok .stp ∧ decode 0x00000006#32 = .ok .stq
    ∧ decode 0x00000007#32 = .ok .stg ∧ decode 0x00000008#32 = .ok .clr ∧ decode 0x00000010#32 = .ok .modexp
    ∧ decode 0x00000011#32 = .ok .modexpg ∧ decode 0x00000012#32 = .ok .modmul
    ∧ decode 0x00000013#32 = .ok .modinv ∧ decode 0x00000014#32 = .ok .qrtest
    ∧ decode 0x00000015#32 = .ok .gentest ∧ decode 0x00000016#32 = .ok .paramchk
    ∧ decode 0x00000018#32 = .ok .encode ∧ decode 0x00000019#32 = .ok .decode ∧ decode 0x00000020#32 = .ok .kdf
    ∧ decode 0x00000021#32 = .ok .kdfxor ∧ decode 0x00000030#32 = .ok .pack
    ∧ decode 0x00000031#32 = .ok .transpose ∧ decode 0x00000032#32 = .ok .matxor)
  ∧ ∀ i, encode i = (opcodeOf i).setWidth 32

/-- 30_encoding.md R64, R70: the decoder and the encoder agree, in both directions: a word decodes to a command exactly
when it is that command's word. -/
def Obligations.DecodeAgreesWithEncode : Prop :=
  ∀ (w : Word) (i : Instr), decode w = .ok i ↔ w = encode i

/-- 30_encoding.md R63, R71: the words that decode are exactly those with MBZ = 0 and an opcode in none of the ranges
that R71 lists as illegal. -/
def Obligations.LegalWordsAreTheDecodedOnes : Prop :=
  ∀ w : Word, (∃ i, decode w = .ok i) ↔
    (w.extractLsb' 8 24 = 0#24 ∧ ¬ ReservedOpcode (w.extractLsb' 0 8).toNat)

/-! ### The step and the life of a command -/

/-- 60_exceptions.md R118: when the engine's step is next and the latched word decodes to i, the step is exec of i, on
the state with the event taken off the interleaving (log 1). -/
def Obligations.StepRunsTheDecodedCommand : Prop :=
  ∀ (s : State) (f : InFlight) (i : Instr) (rest : List Event), EngineNext s rest → s.inflight = some f →
    decode f.word = .ok i → step s = exec i { s with pending := rest }

/-- 60_exceptions.md R118, R133: the engine's step is enabled exactly while BUSY = 1; while IDLE, where it is next, it
changes nothing, and only the event is taken off the interleaving (logs 1 and 8). -/
def Obligations.IdleEngineDoesNothing : Prop :=
  ∀ (s : State) (rest : List Event), EngineNext s rest →
    (s.inflight = none → step s = .next { s with pending := rest })
    ∧ (∀ f, s.inflight = some f → ∃ t, step s = .next t ∧ t.inflight = none)

/-- 30_encoding.md R71, R72: a latched word with MBZ not 0, or with a reserved opcode, completes with ILLEGAL_CMD and
has no other effect. -/
def Obligations.IllegalWordEndsWithIllegalCmd : Prop :=
  ∀ (s : State) (f : InFlight) (rest : List Event), EngineNext s rest → s.inflight = some f →
    (commandFields f.word).wellFormed = false →
    step s = .next (endedWithError { s with pending := rest } 0x01#8)

/-- 60_exceptions.md R117: accept, in full. -/
def Obligations.CmdWriteAccepts : Prop :=
  ∀ (s : State) (w : Word) (rest : List Event), HostWrites s 0x10 w rest → s.inflight = none →
    step s = .next
      { s with
        pending := rest
        cmd := w
        inflight := some { word := w, args := s.args, snap := { buf := s.buf, p := s.p, q := s.q, g := s.g } }
        done := false
        err := false
        errcode := 0x00#8
        result := 0#32
        cmdcnt := BitVec.ofNat 32 (s.cmdcnt.toNat + 1) }

/-- 10_state.md R21: CMD. A write while IDLE accepts the word, a write while BUSY is dropped and sets OVR, and a read
returns the last accepted word. -/
def Obligations.CmdRegisterBehaves : Prop :=
  ∀ (s : State) (rest : List Event),
    (∀ w, HostWrites s 0x10 w rest → s.inflight = none →
      ∃ t, step s = .next t ∧ t.cmd = w ∧ (∃ f, t.inflight = some f ∧ f.word = w) ∧ t.ovr = s.ovr)
    ∧ (∀ w f, HostWrites s 0x10 w rest → s.inflight = some f →
      step s = .next { s with pending := rest, ovr := true })
    ∧ (HostReads s 0x10 rest → step s = .next { s with pending := rest, reply := some s.cmd })
    ∧ State.reset.cmd = 0#32

/-- 60_exceptions.md R121: OVR, once set, stays set until the host writes 1 to bit 3 of STATUS or a reset occurs. -/
def Obligations.OvrIsSticky : Prop :=
  ∀ (s t : State), step s = .next t → s.ovr = true → t.ovr = false →
    ∃ rest, s.pending = .powerOn :: rest
      ∨ (∃ v, HostWrites s 0x0C v rest ∧ v.getLsbD 3 = true)
      ∨ (∃ v, HostWrites s 0x08 v rest ∧ v.getLsbD 1 = true)

/-- 70_reset_and_hazards.md R137, R138: a write to CTRL with bit 1 set, and a power-on reset, put the engine in the
reset state from any phase, dropping an in-flight command with none of its effects. What is left of the interleaving and
the host's last reply, the model's own fields, are kept (log 1, log 3). -/
def Obligations.ResetFromAnyPhase : Prop :=
  ∀ (s : State) (rest : List Event),
    (∀ v, HostWrites s 0x08 v rest → v.getLsbD 1 = true →
      step s = .next { State.reset with pending := rest, reply := s.reply })
    ∧ (s.pending = .powerOn :: rest → step s = .next { State.reset with pending := rest, reply := s.reply })

/-- 70_reset_and_hazards.md R135: the reset state, register by register as the host reads it, P, Q, G, every byte of
Buf, the in-flight record and the IRQ line. -/
def Obligations.ResetStateIsTheTable : Prop :=
  readReg Config.platform State.reset .id = 0x4F544C31#32
  ∧ readReg Config.platform State.reset .version = 0x00010000#32
  ∧ readReg Config.platform State.reset .ctrl = 0#32
  ∧ readReg Config.platform State.reset .status = 0#32
  ∧ readReg Config.platform State.reset .cmd = 0#32
  ∧ (∀ a, argValue State.reset.args a = 0#32)
  ∧ readReg Config.platform State.reset .result = 0#32
  ∧ readReg Config.platform State.reset .cmdcnt = 0#32
  ∧ readReg Config.platform State.reset .bufsize = BitVec.ofNat 32 Config.platform.bufSize
  ∧ readReg Config.platform State.reset .hashlen = BitVec.ofNat 32 Config.platform.hashLen
  ∧ readReg Config.platform State.reset .reserved = 0#32
  ∧ State.reset.p = 0#1024 ∧ State.reset.q = 0#1024 ∧ State.reset.g = 0#1024
  ∧ (∀ x, Memory.read State.reset.buf x = 0#8)
  ∧ State.reset.inflight = none ∧ State.reset.irq = false

/-- 60_exceptions.md R119: after a completion with an error every register, Buf, P, Q, G and RESULT stand as before it,
but for BUSY, ERR and ERRCODE. -/
def Obligations.ErrorsArePrecise : Prop :=
  ∀ (s t : State) (f : InFlight) (rest : List Event), EngineNext s rest → s.inflight = some f → s.err = false →
    step s = .next t → t.err = true →
    t = { s with pending := rest, inflight := none, err := true, errcode := t.errcode }

/-- 60_exceptions.md R118, R134: while BUSY = 1 the engine's step is always enabled and ends the command, with exactly
one of DONE and ERR set; nothing can hang, whatever the word and the arguments are. That it is next when no event is left
is the model's form of R134's fairness (log 1). -/
def Obligations.EveryCommandCompletes : Prop :=
  ∀ (s : State) (f : InFlight) (rest : List Event), State.Inv s → EngineNext s rest → s.inflight = some f →
    ∃ t, step s = .next t ∧ t.inflight = none ∧ t.pending = rest
      ∧ ((t.done = true ∧ t.err = false ∧ t.errcode = 0x00#8)
        ∨ (t.done = false ∧ t.err = true ∧ 1 ≤ t.errcode.toNat ∧ t.errcode.toNat ≤ 8))

/-- 10_state.md R34, R42: what a command commits is a function of its snapshot and latched arguments: two states with
the same in-flight record and the same Buf, P, Q and G, whatever their other registers, end with the same Buf, P, Q, G
and RESULT or both with the same error. -/
def Obligations.CommandsAreFunctionsOfTheRecord : Prop :=
  ∀ (i : Instr) (s s' t t' : State) (f : InFlight), s.inflight = some f → s'.inflight = some f →
    s'.buf = s.buf → s'.p = s.p → s'.q = s.q → s'.g = s.g →
    s.err = false → s'.err = false → s.result = s'.result →
    exec i s = .next t → exec i s' = .next t' →
    t'.buf = t.buf ∧ t'.p = t.p ∧ t'.q = t.q ∧ t'.g = t.g ∧ t'.result = t.result ∧ t'.err = t.err
      ∧ (t.err = true → t'.errcode = t.errcode)

/-- 30_encoding.md R74: a command ignores the arguments that R66 marks "-": two records that agree on the word, the
snapshot and the arguments the command reads have the same end. -/
def Obligations.IgnoredArgumentsHaveNoEffect : Prop :=
  ∀ (i : Instr) (s : State) (f f' : InFlight), f'.word = f.word → f'.snap = f.snap →
    (∀ o ∈ argRoles i, argValue f'.args o.2 = argValue f.args o.2) →
    exec i { s with inflight := some f' } = exec i { s with inflight := some f }

/-- 60_exceptions.md R122, 10_state.md R37: the IRQ line is high after the end of a command exactly when IRQ_EN = 1,
low after an accept, and low after an acknowledgement of DONE and ERR together. -/
def Obligations.IrqFollowsCommandEnd : Prop :=
  (∀ (i : Instr) (s t : State) (f : InFlight), s.inflight = some f → exec i s = .next t → t.irq = s.irqEn)
  ∧ (∀ (s t : State) (w : Word) (rest : List Event), HostWrites s 0x10 w rest → s.inflight = none →
      step s = .next t → t.irq = false)
  ∧ (∀ (s t : State) (v : Word) (rest : List Event), HostWrites s 0x0C v rest → v.getLsbD 1 = true →
      v.getLsbD 2 = true → step s = .next t → t.irq = false)

/-- 10_state.md R28 to R31: P, Q and G change only by the engine's step with LDP, LDQ and LDG latched in turn, or by a
reset. -/
def Obligations.ParametersChangeOnlyByLoadOrReset : Prop :=
  ∀ (s t : State), step s = .next t →
    (∃ rest, s.pending = .powerOn :: rest ∨ ∃ v, HostWrites s 0x08 v rest ∧ v.getLsbD 1 = true)
    ∨ ((t.p ≠ s.p → ∃ f rest, EngineNext s rest ∧ s.inflight = some f ∧ f.word = 0x00000001#32)
      ∧ (t.q ≠ s.q → ∃ f rest, EngineNext s rest ∧ s.inflight = some f ∧ f.word = 0x00000002#32)
      ∧ (t.g ≠ s.g → ∃ f rest, EngineNext s rest ∧ s.inflight = some f ∧ f.word = 0x00000003#32))

/-! ### The registers and the host's accesses -/

/-- 10_state.md R19: CTRL. Bit 0 is IRQ_EN, bit 1 reads 0 and resets when written 1, the rest reads 0 and is ignored; a
reset leaves IRQ_EN = 0 whatever bit 0 of the write is. -/
def Obligations.CtrlRegisterBehaves : Prop :=
  ∀ (s : State) (rest : List Event),
    (HostReads s 0x08 rest → step s = .next { s with pending := rest, reply := some (if s.irqEn then 1#32 else 0#32) })
    ∧ (∀ v, HostWrites s 0x08 v rest → v.getLsbD 1 = false →
      step s = .next { s with pending := rest, irqEn := v.getLsbD 0 })
    ∧ (∀ v, HostWrites s 0x08 v rest → v.getLsbD 1 = true → ∃ t, step s = .next t ∧ t.irqEn = false)

/-- 10_state.md R20: STATUS. A read gives BUSY, DONE, ERR, OVR in bits 0 to 3, ERRCODE in [15:8], 0 elsewhere, and has
no side effect; a write of 1 clears DONE, ERR with ERRCODE, or OVR, and changes nothing else. -/
def Obligations.StatusRegisterBehaves : Prop :=
  ∀ (s : State) (rest : List Event),
    (HostReads s 0x0C rest → ∃ w, step s = .next { s with pending := rest, reply := some w }
      ∧ w.toNat = s.inflight.isSome.toNat + 2 * s.done.toNat + 4 * s.err.toNat + 8 * s.ovr.toNat
          + 256 * s.errcode.toNat)
    ∧ (∀ v, HostWrites s 0x0C v rest → step s = .next
      { s with
        pending := rest
        done := if v.getLsbD 1 then false else s.done
        err := if v.getLsbD 2 then false else s.err
        errcode := if v.getLsbD 2 then 0x00#8 else s.errcode
        ovr := if v.getLsbD 3 then false else s.ovr })

/-- 10_state.md R17, R18, R25, R26: ID, VERSION, BUFSIZE and HASHLEN read their constants, and a write to one is
ignored; so too RESULT, CMDCNT and the reserved offsets (R23, R24, R27), which read their value or 0. -/
def Obligations.ReadOnlyRegistersBehave : Prop :=
  ∀ (s : State) (rest : List Event),
    (HostReads s 0x00 rest → step s = .next { s with pending := rest, reply := some 0x4F544C31#32 })
    ∧ (HostReads s 0x04 rest → step s = .next { s with pending := rest, reply := some 0x00010000#32 })
    ∧ (HostReads s 0x34 rest → ∃ w : Word, step s = .next { s with pending := rest, reply := some w }
        ∧ w.toNat = Config.platform.bufSize)
    ∧ (HostReads s 0x38 rest → ∃ w : Word, step s = .next { s with pending := rest, reply := some w }
        ∧ w.toNat = Config.platform.hashLen ∧ w.toNat ≤ 255)
    ∧ (HostReads s 0x2C rest → step s = .next { s with pending := rest, reply := some s.result })
    ∧ (HostReads s 0x30 rest → step s = .next { s with pending := rest, reply := some s.cmdcnt })
    ∧ (∀ off, off % 4 = 0 → 0x3C ≤ off → off ≤ 0xFC → HostReads s off rest →
        step s = .next { s with pending := rest, reply := some 0#32 })
    ∧ (∀ off v, off % 4 = 0 → off ∈ [0x00, 0x04, 0x2C, 0x30, 0x34, 0x38] ∨ (0x3C ≤ off ∧ off ≤ 0xFC) →
        HostWrites s off v rest → step s = .next { s with pending := rest })

/-- 10_state.md R22: ARG0 to ARG5. A write changes that register alone, in either phase, so the latched copy stays; a
read returns the last value written; no command writes one; accept copies all six. -/
def Obligations.ArgumentRegistersBehave : Prop :=
  ∀ (s : State) (rest : List Event) (a : ArgName),
    (∀ v, HostWrites s (argOffset a) v rest →
      ∃ x, step s = .next { s with pending := rest, args := x } ∧ argValue x a = v
        ∧ ∀ b, b ≠ a → argValue x b = argValue s.args b)
    ∧ (HostReads s (argOffset a) rest →
      step s = .next { s with pending := rest, reply := some (argValue s.args a) })
    ∧ (∀ i t, exec i s = .next t → argValue t.args a = argValue s.args a)
    ∧ (∀ w, HostWrites s 0x10 w rest → s.inflight = none →
      ∃ t f, step s = .next t ∧ t.inflight = some f ∧ argValue f.args a = argValue s.args a)
    ∧ argValue State.reset.args a = 0#32

/-- 20_memory.md R46: the host's buffer accesses while IDLE, named by address or by offset. A read of n bytes returns
them, the byte at the lowest offset in the least significant lane; a write stores the lanes into those bytes and no
other. -/
def Obligations.HostBufferAccess : Prop :=
  ∀ (s : State) (rest : List Event) (op : HostOp) (off n : Nat), s.inflight = none → (n = 1 ∨ n = 2 ∨ n = 4) →
    off % n = 0 → Fits off n → s.pending = .host op :: rest →
    (op = .read (Config.platform.bufBase + off) n ∨ op = .readBuf off n →
      ∃ w : Word, step s = .next { s with pending := rest, reply := some w }
        ∧ ∀ k < n, w.extractLsb' (8 * k) 8 = Memory.read s.buf (off + k))
    ∧ (∀ v, op = .write (Config.platform.bufBase + off) n v ∨ op = .writeBuf off n v →
      ∃ m, step s = .next { s with pending := rest, buf := m }
        ∧ (∀ k < n, Memory.read m (off + k) = v.extractLsb' (8 * k) 8)
        ∧ ∀ x, (x < off ∨ off + n ≤ x) → Memory.read m x = Memory.read s.buf x)

/-- 60_exceptions.md R127, 20_memory.md R47, R48: the host faults. An access named by its address, of at least one byte,
by the window it begins in; one clear of both windows does not reach the engine. An access to the buffer window named by
its offset, wherever that lies (log 16). -/
def Obligations.HostFaultsAreThese : Prop :=
  ∀ (s : State) (rest : List Event) (op : HostOp), s.pending = .host op :: rest →
    (∀ addr width, 1 ≤ width → (op = .read addr width ∨ ∃ v, op = .write addr width v) →
      (∀ off, addr = Config.platform.regBase + off → off < 256 →
        ((∃ r, step s = .fault r) ↔ ¬ (width = 4 ∧ off % 4 = 0)))
      ∧ (∀ off, addr = Config.platform.bufBase + off → off < Config.platform.bufSize →
        ((∃ r, step s = .fault r) ↔
          (¬ ((width = 1 ∨ width = 2 ∨ width = 4) ∧ off % width = 0 ∧ off + width ≤ Config.platform.bufSize)
            ∨ s.inflight ≠ none)))
      ∧ (addr + width ≤ Config.platform.regBase ∨ Config.platform.regBase + 256 ≤ addr →
          addr + width ≤ Config.platform.bufBase ∨ Config.platform.bufBase + Config.platform.bufSize ≤ addr →
        step s = .next { s with pending := rest }))
    ∧ (∀ off width, (op = .readBuf off width ∨ ∃ v, op = .writeBuf off width v) →
      ((∃ r, step s = .fault r) ↔
        (¬ ((width = 1 ∨ width = 2 ∨ width = 4) ∧ off % width = 0 ∧ off + width ≤ Config.platform.bufSize)
          ∨ s.inflight ≠ none)))

/-- 20_memory.md R56: a host read of a register or of the buffer has no side effect: all that changes is the reply. -/
def Obligations.HostReadsHaveNoSideEffect : Prop :=
  ∀ (s t : State) (rest : List Event) (op : HostOp) (a width : Nat), op = .read a width ∨ op = .readBuf a width →
    s.pending = .host op :: rest → step s = .next t → t = { s with pending := rest, reply := t.reply }

/-! ### Invariant -/

/-- Every step keeps the invariant, from every state that has it. -/
def Obligations.StepKeepsTheInvariant : Prop :=
  ∀ (s t : State), State.Inv s → step s = .next t → State.Inv t

/-- The reset state has the invariant. -/
def Obligations.ResetHasTheInvariant : Prop := State.Inv State.reset

/-! ### Control and parameter commands -/

/-- 40_control.md R79: NOP ends DONE and changes nothing else, with RESULT 0; issued from IDLE its accept
counts in CMDCNT and clears DONE, ERR and RESULT, and its end leaves a fresh STATUS. -/
def Obligations.NopResult : Prop :=
  decode 0x00000000#32 = .ok .nop
  ∧ (∀ (s : State) (f : InFlight), s.inflight = some f → ∃ t, exec .nop s = .next t ∧ WroteResult s t 0#32)
  ∧ ∀ (s : State) (rest : List Event), HostWrites s 0x10 0x00000000#32 (.complete :: rest) → s.inflight = none →
    ∃ t u, step s = .next t ∧ t.done = false ∧ t.err = false ∧ t.result = 0#32 ∧ t.cmdcnt = s.cmdcnt + 1#32
      ∧ step t = .next u ∧ u.inflight = none ∧ u.done = true ∧ u.err = false
      ∧ u.errcode = 0x00#8 ∧ u.ovr = s.ovr ∧ u.result = 0#32 ∧ u.cmdcnt = s.cmdcnt + 1#32

/-- 40_control.md R80: LDP. -/
def Obligations.LdpResult : Prop :=
  decode 0x00000001#32 = .ok .ldp ∧ ∀ (s : State) (f : InFlight), s.inflight = some f →
    (¬ Fits f.arg1 128 → exec .ldp s = .next (endedWithError s 0x02#8))
    ∧ (Fits f.arg1 128 → ∃ t, exec .ldp s = .next t ∧ EndedDone s t ∧ t.result = 0#32 ∧ BytesKept s t
      ∧ t.p.toNat = elemAt f.snap.buf f.arg1 ∧ t.q = s.q ∧ t.g = s.g)

/-- 40_control.md R81: LDQ. -/
def Obligations.LdqResult : Prop :=
  decode 0x00000002#32 = .ok .ldq ∧ ∀ (s : State) (f : InFlight), s.inflight = some f →
    (¬ Fits f.arg1 128 → exec .ldq s = .next (endedWithError s 0x02#8))
    ∧ (Fits f.arg1 128 → ∃ t, exec .ldq s = .next t ∧ EndedDone s t ∧ t.result = 0#32 ∧ BytesKept s t
      ∧ t.q.toNat = elemAt f.snap.buf f.arg1 ∧ t.p = s.p ∧ t.g = s.g)

/-- 40_control.md R82: LDG. -/
def Obligations.LdgResult : Prop :=
  decode 0x00000003#32 = .ok .ldg ∧ ∀ (s : State) (f : InFlight), s.inflight = some f →
    (¬ Fits f.arg1 128 → exec .ldg s = .next (endedWithError s 0x02#8))
    ∧ (Fits f.arg1 128 → ∃ t, exec .ldg s = .next t ∧ EndedDone s t ∧ t.result = 0#32 ∧ BytesKept s t
      ∧ t.g.toNat = elemAt f.snap.buf f.arg1 ∧ t.p = s.p ∧ t.q = s.q)

/-- 40_control.md R83 to R85: STP, STQ and STG store P, Q and G of the snapshot as 128 big-endian bytes, with no check
of their values. -/
def Obligations.StoreParameterResult : Prop :=
  (decode 0x00000005#32 = .ok .stp ∧ decode 0x00000006#32 = .ok .stq ∧ decode 0x00000007#32 = .ok .stg)
  ∧ ∀ (s : State) (f : InFlight), s.inflight = some f →
    (¬ Fits f.arg0 128 → exec .stp s = .next (endedWithError s 0x02#8)
      ∧ exec .stq s = .next (endedWithError s 0x02#8) ∧ exec .stg s = .next (endedWithError s 0x02#8))
    ∧ (Fits f.arg0 128 →
      (∃ t, exec .stp s = .next t ∧ WroteBytes s t 0#32 f.arg0 128 ∧ elemAt t.buf f.arg0 = f.snap.p.toNat)
      ∧ (∃ t, exec .stq s = .next t ∧ WroteBytes s t 0#32 f.arg0 128 ∧ elemAt t.buf f.arg0 = f.snap.q.toNat)
      ∧ (∃ t, exec .stg s = .next t ∧ WroteBytes s t 0#32 f.arg0 128 ∧ elemAt t.buf f.arg0 = f.snap.g.toNat))

/-- 40_control.md R86: CLR. -/
def Obligations.ClrResult : Prop :=
  decode 0x00000008#32 = .ok .clr ∧ ∀ (s : State) (f : InFlight), s.inflight = some f →
    (¬ Fits f.arg0 f.arg3 → exec .clr s = .next (endedWithError s 0x02#8))
    ∧ (Fits f.arg0 f.arg3 → ∃ t, exec .clr s = .next t ∧ WroteBytes s t 0#32 f.arg0 f.arg3
      ∧ ∀ k < f.arg3, Memory.read t.buf (f.arg0 + k) = 0#8)

/-! ### Modular arithmetic commands -/

/-- 41_modarith.md R88: MODEXP. -/
def Obligations.ModexpResult : Prop :=
  decode 0x00000010#32 = .ok .modexp ∧ ∀ (s : State) (f : InFlight), s.inflight = some f →
    (¬ GoodModulus f → exec .modexp s = .next (endedWithError s 0x03#8))
    ∧ (GoodModulus f → ¬ (Fits f.arg1 128 ∧ Fits f.arg2 128 ∧ Fits f.arg0 128) →
      exec .modexp s = .next (endedWithError s 0x02#8))
    ∧ (GoodModulus f → Fits f.arg1 128 → Fits f.arg2 128 → Fits f.arg0 128 →
      ∃ t, exec .modexp s = .next t ∧ WroteBytes s t 0#32 f.arg0 128
        ∧ elemAt t.buf f.arg0
          = (elemAt f.snap.buf f.arg1 % f.modulus) ^ elemAt f.snap.buf f.arg2 % f.modulus)

/-- 41_modarith.md R89: MODEXPG. -/
def Obligations.ModexpgResult : Prop :=
  decode 0x00000011#32 = .ok .modexpg ∧ ∀ (s : State) (f : InFlight), s.inflight = some f →
    (¬ GoodModulus f → exec .modexpg s = .next (endedWithError s 0x03#8))
    ∧ (GoodModulus f → ¬ (Fits f.arg2 128 ∧ Fits f.arg0 128) → exec .modexpg s = .next (endedWithError s 0x02#8))
    ∧ (GoodModulus f → Fits f.arg2 128 → Fits f.arg0 128 →
      ∃ t, exec .modexpg s = .next t ∧ WroteBytes s t 0#32 f.arg0 128
        ∧ elemAt t.buf f.arg0 = (f.snap.g.toNat % f.modulus) ^ elemAt f.snap.buf f.arg2 % f.modulus)

/-- 41_modarith.md R90: MODMUL. -/
def Obligations.ModmulResult : Prop :=
  decode 0x00000012#32 = .ok .modmul ∧ ∀ (s : State) (f : InFlight), s.inflight = some f →
    (¬ GoodModulus f → exec .modmul s = .next (endedWithError s 0x03#8))
    ∧ (GoodModulus f → ¬ (Fits f.arg1 128 ∧ Fits f.arg2 128 ∧ Fits f.arg0 128) →
      exec .modmul s = .next (endedWithError s 0x02#8))
    ∧ (GoodModulus f → Fits f.arg1 128 → Fits f.arg2 128 → Fits f.arg0 128 →
      ∃ t, exec .modmul s = .next t ∧ WroteBytes s t 0#32 f.arg0 128
        ∧ elemAt t.buf f.arg0 = elemAt f.snap.buf f.arg1 * elemAt f.snap.buf f.arg2 % f.modulus)

/-- 41_modarith.md R91: MODINV. -/
def Obligations.ModinvResult : Prop :=
  decode 0x00000013#32 = .ok .modinv ∧ ∀ (s : State) (f : InFlight), s.inflight = some f →
    (¬ GoodModulus f → exec .modinv s = .next (endedWithError s 0x03#8))
    ∧ (GoodModulus f → ¬ (Fits f.arg1 128 ∧ Fits f.arg0 128) → exec .modinv s = .next (endedWithError s 0x02#8))
    ∧ (GoodModulus f → Fits f.arg1 128 → Fits f.arg0 128 →
        Nat.gcd (elemAt f.snap.buf f.arg1) f.modulus ≠ 1 → exec .modinv s = .next (endedWithError s 0x04#8))
    ∧ (GoodModulus f → Fits f.arg1 128 → Fits f.arg0 128 → Nat.gcd (elemAt f.snap.buf f.arg1) f.modulus = 1 →
      ∃ t, exec .modinv s = .next t ∧ WroteBytes s t 0#32 f.arg0 128
        ∧ 1 ≤ elemAt t.buf f.arg0 ∧ elemAt t.buf f.arg0 < f.modulus
        ∧ elemAt f.snap.buf f.arg1 * elemAt t.buf f.arg0 % f.modulus = 1)

/-- 41_modarith.md R92: QRTEST. -/
def Obligations.QrtestResult : Prop :=
  decode 0x00000014#32 = .ok .qrtest ∧ ∀ (s : State) (f : InFlight), s.inflight = some f →
    (¬ GoodModulus f → exec .qrtest s = .next (endedWithError s 0x03#8))
    ∧ (GoodModulus f → ¬ Fits f.arg1 128 → exec .qrtest s = .next (endedWithError s 0x02#8))
    ∧ (GoodModulus f → Fits f.arg1 128 →
      ∃ t, exec .qrtest s = .next t
        ∧ WroteResult s t (if elemAt f.snap.buf f.arg1 ^ ((f.modulus - 1) / 2) % f.modulus = 1 then 1#32 else 0#32))

/-- 41_modarith.md R93: GENTEST, the literal predicate of 90_conflicts.md C3. -/
def Obligations.GentestResult : Prop :=
  decode 0x00000015#32 = .ok .gentest ∧ ∀ (s : State) (f : InFlight), s.inflight = some f →
    (¬ GoodModulus f → exec .gentest s = .next (endedWithError s 0x03#8))
    ∧ (GoodModulus f → ¬ Fits f.arg1 128 → exec .gentest s = .next (endedWithError s 0x02#8))
    ∧ (GoodModulus f → Fits f.arg1 128 →
      ∃ t, exec .gentest s = .next t
        ∧ WroteResult s t
          (if elemAt f.snap.buf f.arg1 ^ ((f.modulus - 1) / 2) % f.modulus = f.modulus - 1 then 1#32 else 0#32))

/-- 41_modarith.md R94: PARAMCHK. -/
def Obligations.ParamchkResult : Prop :=
  decode 0x00000016#32 = .ok .paramchk ∧ ∀ (s : State) (f : InFlight), s.inflight = some f →
    (¬ GoodModulus f → exec .paramchk s = .next (endedWithError s 0x03#8))
    ∧ (GoodModulus f →
      ∃ t, exec .paramchk s = .next t
        ∧ WroteResult s t (if f.snap.g.toNat ^ f.snap.q.toNat % f.modulus = 1 then 1#32 else 0#32))

/-- 41_modarith.md R95: ENCODE. -/
def Obligations.EncodeResult : Prop :=
  decode 0x00000018#32 = .ok .encode ∧ ∀ (s : State) (f : InFlight) (m : Nat), s.inflight = some f →
    m = 2 ^ (8 * f.arg3) + beInt (Memory.readBytes f.snap.buf f.arg1 f.arg3) →
    (¬ GoodModulus f → exec .encode s = .next (endedWithError s 0x03#8))
    ∧ (GoodModulus f → 128 ≤ f.arg3 → exec .encode s = .next (endedWithError s 0x05#8))
    ∧ (GoodModulus f → f.arg3 < 128 → ¬ (Fits f.arg1 f.arg3 ∧ Fits f.arg0 128) →
      exec .encode s = .next (endedWithError s 0x02#8))
    ∧ (GoodModulus f → f.arg3 < 128 → Fits f.arg1 f.arg3 → Fits f.arg0 128 → (f.modulus - 1) / 2 < m →
      exec .encode s = .next (endedWithError s 0x07#8))
    ∧ (GoodModulus f → f.arg3 < 128 → Fits f.arg1 f.arg3 → Fits f.arg0 128 → m ≤ (f.modulus - 1) / 2 →
      ∃ t, exec .encode s = .next t ∧ WroteBytes s t 0#32 f.arg0 128
        ∧ elemAt t.buf f.arg0
          = if m ^ ((f.modulus - 1) / 2) % f.modulus = 1 then m else f.modulus - m)

/-- 41_modarith.md R96: DECODE. Here e is the element after the fold, k its top bit's place, n the decoded length. -/
def Obligations.DecodeResult : Prop :=
  decode 0x00000019#32 = .ok .decode ∧ ∀ (s : State) (f : InFlight) (e k n : Nat), s.inflight = some f →
    e = (if (f.modulus - 1) / 2 < elemAt f.snap.buf f.arg1 then f.modulus - elemAt f.snap.buf f.arg1
      else elemAt f.snap.buf f.arg1) →
    k = Nat.log2 e → n = k / 8 →
    (¬ GoodModulus f → exec .decode s = .next (endedWithError s 0x03#8))
    ∧ (GoodModulus f → ¬ Fits f.arg1 128 → exec .decode s = .next (endedWithError s 0x02#8))
    ∧ (GoodModulus f → Fits f.arg1 128 → f.modulus ≤ elemAt f.snap.buf f.arg1 →
      exec .decode s = .next (endedWithError s 0x07#8))
    ∧ (GoodModulus f → Fits f.arg1 128 → elemAt f.snap.buf f.arg1 < f.modulus → (e = 0 ∨ k % 8 ≠ 0) →
      exec .decode s = .next (endedWithError s 0x08#8))
    ∧ (GoodModulus f → Fits f.arg1 128 → elemAt f.snap.buf f.arg1 < f.modulus → e ≠ 0 → k % 8 = 0 →
        ¬ Fits f.arg0 n → exec .decode s = .next (endedWithError s 0x02#8))
    ∧ (GoodModulus f → Fits f.arg1 128 → elemAt f.snap.buf f.arg1 < f.modulus → e ≠ 0 → k % 8 = 0 →
        Fits f.arg0 n →
      n ≤ 127 ∧ ∃ t, exec .decode s = .next t ∧ WroteBytes s t (BitVec.ofNat 32 n) f.arg0 n
        ∧ beInt (Memory.readBytes t.buf f.arg0 n) = e - 2 ^ k)

/-- 41_modarith.md R97: ENCODE of a message s, then DECODE of the 128-byte result, writes the message and sets RESULT to
its length. -/
def Obligations.DecodeInvertsEncode : Prop :=
  ∀ (s s' t : State) (f f' : InFlight), s.inflight = some f → GoodModulus f → f.arg3 < 128 →
    2 ^ (8 * f.arg3) + beInt (Memory.readBytes f.snap.buf f.arg1 f.arg3) ≤ (f.modulus - 1) / 2 →
    Fits f.arg1 f.arg3 → Fits f.arg0 128 → exec .encode s = .next t →
    s'.inflight = some f' → f'.snap.buf = t.buf → f'.snap.p = f.snap.p → f'.arg1 = f.arg0 →
    Fits f'.arg0 f.arg3 →
    ∃ t', exec .decode s' = .next t' ∧ t'.done = true ∧ t'.result.toNat = f.arg3
      ∧ Memory.readBytes t'.buf f'.arg0 f.arg3 = Memory.readBytes f.snap.buf f.arg1 f.arg3

/-! ### Key-derivation commands -/

/-- 42_kdf.md R101: the pad has L bytes; its block i is H applied i times to block 0, block 0 is H of the separator's 4
big-endian bytes before the seed, and the last block is cut to what is left. -/
def Obligations.PadIsTheHashChain : Prop :=
  ∀ (c : Params) (L : Nat) (ds : Word) (seed : List Byte),
    (kdfPad c L ds seed).length = L
    ∧ ∀ i, i * c.hashLen < L →
      ((kdfPad c L ds seed).drop (i * c.hashLen)).take c.hashLen
        = (c.kdfH^[i] (c.kdfH (beBytes 4 ds.toNat ++ seed))).take (min c.hashLen (L - i * c.hashLen))

/-- 42_kdf.md R104 (b): a shorter pad is the beginning of a longer one with the same separator and seed. -/
def Obligations.PadPrefix : Prop :=
  ∀ (c : Params) (L1 L2 : Nat) (ds : Word) (seed : List Byte), L1 ≤ L2 →
    kdfPad c L1 ds seed = (kdfPad c L2 ds seed).take L1

/-- 42_kdf.md R102: KDF. -/
def Obligations.KdfResult : Prop :=
  decode 0x00000020#32 = .ok .kdf ∧ ∀ (s : State) (f : InFlight), s.inflight = some f →
    (¬ (Fits f.arg1 f.arg5 ∧ Fits f.arg0 f.arg3) → exec .kdf s = .next (endedWithError s 0x02#8))
    ∧ (Fits f.arg1 f.arg5 → Fits f.arg0 f.arg3 →
      ∃ t, exec .kdf s = .next t ∧ WroteBytes s t 0#32 f.arg0 f.arg3
        ∧ Memory.readBytes t.buf f.arg0 f.arg3
          = kdfPad Config.platform f.arg3 f.args.a4 (Memory.readBytes f.snap.buf f.arg1 f.arg5))

/-- 42_kdf.md R103: KDFXOR. -/
def Obligations.KdfxorResult : Prop :=
  decode 0x00000021#32 = .ok .kdfxor ∧ ∀ (s : State) (f : InFlight), s.inflight = some f →
    (¬ (Fits f.arg1 f.arg5 ∧ Fits f.arg0 f.arg3 ∧ Fits f.arg2 f.arg3) →
      exec .kdfxor s = .next (endedWithError s 0x02#8))
    ∧ (Fits f.arg1 f.arg5 → Fits f.arg0 f.arg3 → Fits f.arg2 f.arg3 →
      ∃ t, exec .kdfxor s = .next t ∧ WroteBytes s t 0#32 f.arg0 f.arg3
        ∧ ∀ k < f.arg3, Memory.read t.buf (f.arg0 + k)
          = (kdfPad Config.platform f.arg3 f.args.a4 (Memory.readBytes f.snap.buf f.arg1 f.arg5)).getD k 0#8
              ^^^ Memory.read f.snap.buf (f.arg2 + k))

/-- 42_kdf.md R103: applying KDFXOR a second time, to its own output with equal seed bytes, separator and length,
restores the data. -/
def Obligations.KdfxorTwiceRestores : Prop :=
  ∀ (s s' t : State) (f f' : InFlight), s.inflight = some f →
    Fits f.arg1 f.arg5 → Fits f.arg0 f.arg3 → Fits f.arg2 f.arg3 → exec .kdfxor s = .next t →
    s'.inflight = some f' → f'.snap.buf = t.buf → f'.arg2 = f.arg0 → f'.arg3 = f.arg3 →
    f'.args.a4 = f.args.a4 → f'.arg5 = f.arg5 →
    Memory.readBytes t.buf f'.arg1 f'.arg5 = Memory.readBytes f.snap.buf f.arg1 f.arg5 →
    Fits f'.arg1 f'.arg5 → Fits f'.arg0 f'.arg3 →
    ∃ t', exec .kdfxor s' = .next t' ∧ t'.done = true
      ∧ Memory.readBytes t'.buf f'.arg0 f.arg3 = Memory.readBytes f.snap.buf f.arg2 f.arg3

/-! ### Bit-matrix commands -/

/-- 43_bitmatrix.md R110: PACK. -/
def Obligations.PackResult : Prop :=
  decode 0x00000030#32 = .ok .pack ∧ ∀ (s : State) (f : InFlight), s.inflight = some f →
    (¬ GoodDims f → exec .pack s = .next (endedWithError s 0x06#8))
    ∧ (GoodDims f → ¬ (Fits f.arg0 (f.arg3 * f.arg4 / 8)
          ∧ (0 < f.arg4 → Fits (f.arg1 + (f.arg4 - 1) * f.arg5) (f.arg3 / 8))) →
      exec .pack s = .next (endedWithError s 0x02#8))
    ∧ (GoodDims f → Fits f.arg0 (f.arg3 * f.arg4 / 8) →
        (0 < f.arg4 → Fits (f.arg1 + (f.arg4 - 1) * f.arg5) (f.arg3 / 8)) →
      ∃ t, exec .pack s = .next t ∧ WroteBytes s t 0#32 f.arg0 (f.arg3 * f.arg4 / 8)
        ∧ ∀ c < f.arg4, ∀ j < f.arg3 / 8, Memory.read t.buf (f.arg0 + c * (f.arg3 / 8) + j)
          = Memory.read f.snap.buf (f.arg1 + c * f.arg5 + j))

/-- 43_bitmatrix.md R111: TRANSPOSE. Bit r*COLS + c of the bytes written is bit c*ROWS + r of the bytes before, counting
from the most significant bit of each byte. -/
def Obligations.TransposeResult : Prop :=
  decode 0x00000031#32 = .ok .transpose ∧ ∀ (s : State) (f : InFlight), s.inflight = some f →
    (¬ GoodDims f → exec .transpose s = .next (endedWithError s 0x06#8))
    ∧ (GoodDims f → ¬ Fits f.arg0 (f.arg3 * f.arg4 / 8) → exec .transpose s = .next (endedWithError s 0x02#8))
    ∧ (GoodDims f → Fits f.arg0 (f.arg3 * f.arg4 / 8) →
      ∃ t, exec .transpose s = .next t ∧ WroteBytes s t 0#32 f.arg0 (f.arg3 * f.arg4 / 8)
        ∧ ∀ r < f.arg3, ∀ c < f.arg4,
          (Memory.read t.buf (f.arg0 + (r * f.arg4 + c) / 8)).getLsbD (7 - (r * f.arg4 + c) % 8)
            = (Memory.read f.snap.buf (f.arg0 + (c * f.arg3 + r) / 8)).getLsbD (7 - (c * f.arg3 + r) % 8))

/-- 43_bitmatrix.md R113: TRANSPOSE with (ROWS, COLS), then TRANSPOSE of the same bytes with the dimensions swapped,
restores them. -/
def Obligations.TransposeTwiceRestores : Prop :=
  ∀ (s s' t : State) (f f' : InFlight), s.inflight = some f → GoodDims f → Fits f.arg0 (f.arg3 * f.arg4 / 8) →
    exec .transpose s = .next t → s'.inflight = some f' → f'.snap.buf = t.buf → s'.buf = t.buf →
    f'.arg0 = f.arg0 → f'.arg3 = f.arg4 → f'.arg4 = f.arg3 →
    ∃ t', exec .transpose s' = .next t' ∧ t'.done = true
      ∧ (∀ k < f.arg3 * f.arg4 / 8, Memory.read t'.buf (f.arg0 + k) = Memory.read f.snap.buf (f.arg0 + k))
      ∧ BytesKeptOutside s t' f.arg0 (f.arg3 * f.arg4 / 8)

/-- 43_bitmatrix.md R112: MATXOR. -/
def Obligations.MatxorResult : Prop :=
  decode 0x00000032#32 = .ok .matxor ∧ ∀ (s : State) (f : InFlight), s.inflight = some f →
    (¬ GoodDims f → exec .matxor s = .next (endedWithError s 0x06#8))
    ∧ (GoodDims f → ¬ (Fits f.arg0 (f.arg3 * f.arg4 / 8) ∧ Fits f.arg1 (f.arg3 / 8)) →
      exec .matxor s = .next (endedWithError s 0x02#8))
    ∧ (GoodDims f → Fits f.arg0 (f.arg3 * f.arg4 / 8) → Fits f.arg1 (f.arg3 / 8) →
      ∃ t, exec .matxor s = .next t ∧ WroteBytes s t 0#32 f.arg0 (f.arg3 * f.arg4 / 8)
        ∧ ∀ c < f.arg4, ∀ j < f.arg3 / 8, Memory.read t.buf (f.arg0 + c * (f.arg3 / 8) + j)
          = Memory.read f.snap.buf (f.arg0 + c * (f.arg3 / 8) + j) ^^^ Memory.read f.snap.buf (f.arg1 + j))

/-- 43_bitmatrix.md R112: applying MATXOR a second time with an equal vector restores the matrix. -/
def Obligations.MatxorTwiceRestores : Prop :=
  ∀ (s s' t : State) (f f' : InFlight), s.inflight = some f → GoodDims f →
    Fits f.arg0 (f.arg3 * f.arg4 / 8) → Fits f.arg1 (f.arg3 / 8) → exec .matxor s = .next t →
    s'.inflight = some f' → f'.snap.buf = t.buf → f'.arg0 = f.arg0 → f'.arg3 = f.arg3 → f'.arg4 = f.arg4 →
    Fits f'.arg1 (f.arg3 / 8) →
    Memory.readBytes t.buf f'.arg1 (f.arg3 / 8) = Memory.readBytes f.snap.buf f.arg1 (f.arg3 / 8) →
    ∃ t', exec .matxor s' = .next t' ∧ t'.done = true
      ∧ ∀ k < f.arg3 * f.arg4 / 8, Memory.read t'.buf (f.arg0 + k) = Memory.read f.snap.buf (f.arg0 + k)
end

