-- ==== Sys2Proof/Laws/BigNum.lean ====
section
/-! SUPPORT. The big-integer functions compute what 00_scope.md R10 says. -/

namespace Sys2Proof.Machine

theorem lt_two_pow_bitLen (v : Nat) : v < 2 ^ bitLen v := by
  unfold bitLen
  split
  · simp [*]
  · exact Nat.lt_log2_self

theorem two_pow_bitLen_le (v : Nat) (h : v ≠ 0) : 2 ^ (bitLen v - 1) ≤ v := by
  simp only [bitLen, h, if_false, Nat.add_sub_cancel]
  exact Nat.log2_self_le h

theorem bitLen_pos (v : Nat) (h : v ≠ 0) : 0 < bitLen v := by simp [bitLen, h]

/-- The bit length is the k + 1 with 2^k <= v < 2^(k+1). -/
theorem bitLen_eq (v k : Nat) (hlo : 2 ^ k ≤ v) (hhi : v < 2 ^ (k + 1)) : bitLen v = k + 1 := by
  have h0 : v ≠ 0 := by have := Nat.two_pow_pos k; omega
  have h1 := two_pow_bitLen_le v h0
  have h2 := lt_two_pow_bitLen v
  have h3 := bitLen_pos v h0
  have a : bitLen v - 1 < k + 1 := (Nat.pow_lt_pow_iff_right (by norm_num)).1 (lt_of_le_of_lt h1 hhi)
  have b : k < bitLen v := (Nat.pow_lt_pow_iff_right (by norm_num)).1 (lt_of_le_of_lt hlo h2)
  omega

theorem powLoop_eq (m : Nat) (hm : 0 < m) (n b e acc : Nat) (he : e < 2 ^ n) (hacc : acc < m) :
    powLoop m n b e acc = acc * b ^ e % m := by
  induction n generalizing b e acc with
  | zero =>
    have : e = 0 := by simpa using he
    simp [powLoop, this, Nat.mod_eq_of_lt hacc]
  | succ n ih =>
    unfold powLoop
    split
    · simp [*, Nat.mod_eq_of_lt hacc]
    · have h2 : e / 2 < 2 ^ n := by rw [pow_succ] at he; omega
      have key : ∀ a, a * (b * b % m) ^ (e / 2) % m = a * b ^ (2 * (e / 2)) % m := by
        intro a
        rw [Nat.mul_mod, Nat.pow_mod, Nat.mod_mod, ← Nat.pow_mod, ← Nat.mul_mod, pow_mul, sq]
      rw [ih _ _ _ h2 (by split; exacts [Nat.mod_lt _ hm, hacc]), key]
      split
      · rename_i h1
        have he2 : e = 2 * (e / 2) + 1 := by omega
        conv_rhs => rw [he2, pow_succ]
        rw [Nat.mul_mod, Nat.mod_mod, ← Nat.mul_mod]
        congr 1; ring
      · have he2 : e = 2 * (e / 2) := by omega
        conv_rhs => rw [he2]

/-- `pow(b, e, m)` is b^e mod m (00_scope.md R10). -/
theorem powMod_eq (b e m : Nat) (hm : 0 < m) : powMod b e m = b ^ e % m := by
  unfold powMod
  rcases Nat.lt_or_ge 1 m with h | h
  · rw [powLoop_eq m hm _ _ _ _ (lt_two_pow_bitLen e) (Nat.mod_lt _ hm), Nat.mod_eq_of_lt h, one_mul, ← Nat.pow_mod]
  · have : m = 1 := by omega
    subst this
    rw [powLoop_eq 1 hm _ _ _ _ (lt_two_pow_bitLen e) (by norm_num)]
    simp [Nat.mod_one]

theorem powMod_lt (b e m : Nat) (hm : 0 < m) : powMod b e m < m := by
  rw [powMod_eq b e m hm]; exact Nat.mod_lt _ hm

/-- What extended Euclid answers: with the coefficients' invariant, the coefficient of the greatest common divisor. -/
theorem invLoop_spec (m a : Nat) (hm : 0 < m) (n r0 r1 t0 t1 : Nat) (hr0 : 0 < r0) (hle : r1 ≤ r0)
    (hfuel : r0 * r1 < 2 ^ n) (h0 : t0 * a ≡ r0 [MOD m]) (h1 : t1 * a ≡ r1 [MOD m]) (l0 : t0 < m) (l1 : t1 < m) :
    invLoop m n r0 r1 t0 t1 * a ≡ Nat.gcd r0 r1 [MOD m] ∧ invLoop m n r0 r1 t0 t1 < m := by
  induction n generalizing r0 r1 t0 t1 with
  | zero =>
    have h : r1 = 0 := by
      rcases Nat.eq_zero_or_pos r1 with h | h
      · exact h
      · have := Nat.mul_pos hr0 h
        omega
    subst h
    simpa [invLoop] using ⟨h0, l0⟩
  | succ n ih =>
    unfold invLoop
    split
    · subst_vars; simpa using ⟨h0, l0⟩
    · rename_i hr1
      have hr1' : 0 < r1 := Nat.pos_of_ne_zero hr1
      have hdm := Nat.div_add_mod r0 r1
      have hq : 1 ≤ r0 / r1 := (Nat.one_le_div_iff hr1').2 hle
      have hlt := Nat.mod_lt r0 hr1'
      have hhalf : 2 * (r0 % r1) ≤ r0 := by nlinarith
      have hgcd : Nat.gcd r1 (r0 % r1) = Nat.gcd r0 r1 := by
        rw [Nat.gcd_comm r1, ← Nat.gcd_rec, Nat.gcd_comm]
      rw [← hgcd]
      refine ih r1 (r0 % r1) t1 _ hr1' hlt.le ?_ h1 ?_ l1 (Nat.mod_lt _ hm)
      · rw [pow_succ] at hfuel; nlinarith
      · have hx : r0 / r1 * t1 % m < m := Nat.mod_lt _ hm
        have e1 : (t0 + (m - r0 / r1 * t1 % m)) % m * a + r0 / r1 * r1 ≡ r0 [MOD m] := by
          calc (t0 + (m - r0 / r1 * t1 % m)) % m * a + r0 / r1 * r1
              ≡ (t0 + (m - r0 / r1 * t1 % m)) * a + r0 / r1 * (t1 * a) [MOD m] := by
                exact Nat.ModEq.add ((Nat.mod_modEq _ _).mul_right a) ((h1.symm).mul_left _)
            _ ≡ (t0 + (m - r0 / r1 * t1 % m)) * a + (r0 / r1 * t1 % m) * a [MOD m] := by
                refine Nat.ModEq.add_left _ ?_
                rw [← mul_assoc]
                exact ((Nat.mod_modEq _ _).mul_right a).symm
            _ = t0 * a + m * a := by
                rw [← Nat.add_mul, ← Nat.add_mul]; congr 1; omega
            _ ≡ t0 * a [MOD m] := by
                simp [Nat.ModEq]
            _ ≡ r0 [MOD m] := h0
        have e2 : r0 % r1 + r0 / r1 * r1 = r0 := by rw [mul_comm]; omega
        exact Nat.ModEq.add_right_cancel' (r0 / r1 * r1) (by rw [e2]; exact e1)

/-- `inv(a, m)`: the x in [1, m) with a*x mod m = 1 (00_scope.md R10). -/
theorem invMod_spec (a m : Nat) (hm : 1 < m) (hg : Nat.gcd a m = 1) :
    1 ≤ invMod a m ∧ invMod a m < m ∧ a * invMod a m % m = 1 := by
  have hlt := lt_two_pow_bitLen m
  have hfuel : m * (a % m) < 2 ^ (2 * bitLen m) := by
    have h1 : a % m < m := Nat.mod_lt _ (by omega)
    have h2 : m * (a % m) < m * m := Nat.mul_lt_mul_of_pos_left h1 (by omega)
    have h3 : m * m < 2 ^ bitLen m * 2 ^ bitLen m := Nat.mul_lt_mul'' hlt hlt
    rw [two_mul, pow_add]; omega
  obtain ⟨hmod, hl⟩ := invLoop_spec m a (by omega) (2 * bitLen m) m (a % m) 0 1 (by omega)
    (Nat.mod_lt _ (by omega)).le hfuel (by simp [Nat.ModEq])
    (by simpa using (Nat.mod_modEq a m).symm) (by omega) (by omega)
  have hg' : Nat.gcd m (a % m) = 1 := by rw [Nat.gcd_comm, ← Nat.gcd_rec, Nat.gcd_comm]; exact hg
  rw [hg'] at hmod
  have hone : a * invMod a m % m = 1 := by
    rw [mul_comm]
    have : invMod a m * a % m = 1 % m := hmod
    rw [this, Nat.mod_eq_of_lt hm]
  refine ⟨?_, hl, hone⟩
  by_contra h0
  have : invMod a m = 0 := by omega
  rw [this] at hone
  simp at hone

end Sys2Proof.Machine
end

