-- ==== Sys2Proof/Laws/Config.lean ====
section
/-! SUPPORT. What holds of every value of the OPEN parameters: the constraints of 00_scope.md R7 and 20_memory.md
R58. -/

namespace Sys2Proof

theorem Params.bufSize_ge (c : Params) : 1024 ≤ c.bufSize := by
  simp only [Params.bufSize]; omega

theorem Params.bufSize_le (c : Params) : c.bufSize ≤ 2 ^ 31 := by
  have := c.bufQuads.isLt
  simp only [Params.bufSize]; omega

theorem Params.bufSize_mod (c : Params) : c.bufSize % 4 = 0 := by
  simp only [Params.bufSize]; omega

theorem Params.hashLen_pos (c : Params) : 0 < c.hashLen := by
  simp only [Params.hashLen]; omega

theorem Params.hashLen_le (c : Params) : c.hashLen ≤ 255 := by
  have := c.hashLenPred.isLt
  simp only [Params.hashLen]; omega

@[simp] theorem Params.length_kdfH (c : Params) (s : List Byte) : (c.kdfH s).length = c.hashLen := by
  simp [Params.kdfH]

/-- A hash that already answers HASH_LEN bytes is taken as it is. -/
theorem Params.kdfH_eq_hashRaw (c : Params) (s : List Byte) (h : (c.hashRaw s).length = c.hashLen) :
    c.kdfH s = c.hashRaw s := by
  simp [Params.kdfH, ← h]

theorem Params.regBase_mod (c : Params) : c.regBase % 256 = 0 := by
  unfold Params.regBase; split <;> omega

theorem Params.bufBase_mod (c : Params) : c.bufBase % 4 = 0 := by
  unfold Params.bufBase; split <;> omega

/-- The two windows do not overlap (20_memory.md R58). -/
theorem Params.windows_disjoint (c : Params) :
    c.regBase + 256 ≤ c.bufBase ∨ c.bufBase + c.bufSize ≤ c.regBase := by
  unfold Params.regBase Params.bufBase
  split
  · left; omega
  · right; omega

end Sys2Proof
end

