-- ==== Sys2Proof/Laws/Bytes.lean ====
section
/-! SUPPORT. Lengths, values and bits of byte strings. -/

namespace Sys2Proof.Machine

/-! ### Big-endian values -/

@[simp] theorem length_beBytes (n v : Nat) : (beBytes n v).length = n := by simp [beBytes]

theorem foldl_be_append (s : List Byte) (v : Nat) :
    s.foldl (fun v b => v * 256 + b.toNat) v = v * 256 ^ s.length + beInt s := by
  induction s generalizing v with
  | nil => simp [beInt]
  | cons b t ih =>
    simp only [beInt, List.foldl_cons, List.length_cons]
    rw [ih, ih (0 * 256 + b.toNat)]
    ring

theorem beInt_cons (b : Byte) (s : List Byte) : beInt (b :: s) = b.toNat * 256 ^ s.length + beInt s := by
  have := foldl_be_append s (0 * 256 + b.toNat)
  simpa [beInt] using this

@[simp] theorem beInt_nil : beInt [] = 0 := rfl

theorem beInt_lt (s : List Byte) : beInt s < 256 ^ s.length := by
  induction s with
  | nil => simp
  | cons b t ih =>
    rw [beInt_cons, List.length_cons, pow_succ]
    have hb : b.toNat < 256 := b.isLt
    nlinarith

theorem beBytes_succ (n v : Nat) :
    beBytes (n + 1) v = BitVec.ofNat 8 (v / 256 ^ n) :: beBytes n v := by
  simp only [beBytes, List.range_succ_eq_map, List.map_cons, List.map_map]
  congr 1
  apply List.map_congr_left
  intro i hi
  rw [List.mem_range] at hi
  simp only [Function.comp]
  congr 3
  omega

/-- The bytes of a value have that value, up to its low n bytes. -/
theorem beInt_beBytes_mod (n v : Nat) : beInt (beBytes n v) = v % 256 ^ n := by
  induction n with
  | zero => simp [beBytes, Nat.mod_one]
  | succ n ih =>
    have h1 : v % (256 ^ n * 256) = v % 256 ^ n + 256 ^ n * (v / 256 ^ n % 256) := Nat.mod_mul
    rw [beBytes_succ, beInt_cons, ih, length_beBytes, BitVec.toNat_ofNat, pow_succ 256 n, h1]
    norm_num
    ring

theorem beInt_beBytes (n v : Nat) (h : v < 256 ^ n) : beInt (beBytes n v) = v := by
  rw [beInt_beBytes_mod, Nat.mod_eq_of_lt h]

/-- A byte string is the bytes of its value. -/
theorem beBytes_beInt (s : List Byte) : beBytes s.length (beInt s) = s := by
  induction s with
  | nil => simp [beBytes]
  | cons b t ih =>
    have hlt := beInt_lt t
    have hpos : 0 < 256 ^ t.length := by positivity
    rw [List.length_cons, beBytes_succ]
    have hdiv : beInt (b :: t) / 256 ^ t.length = b.toNat := by
      rw [beInt_cons, mul_comm, Nat.mul_add_div hpos, Nat.div_eq_of_lt hlt, add_zero]
    have htail : beBytes t.length (beInt (b :: t)) = beBytes t.length (beInt t) := by
      have e : ∀ i ∈ List.range t.length,
          BitVec.ofNat 8 (beInt (b :: t) / 256 ^ (t.length - 1 - i))
            = BitVec.ofNat 8 (beInt t / 256 ^ (t.length - 1 - i)) := by
        intro i hi
        rw [List.mem_range] at hi
        apply BitVec.eq_of_toNat_eq
        rw [BitVec.toNat_ofNat, BitVec.toNat_ofNat, beInt_cons]
        have hk : 256 ^ t.length = 256 ^ (t.length - 1 - i) * (256 * 256 ^ i) := by
          rw [← pow_succ', ← pow_add]; congr 1; omega
        rw [hk, show b.toNat * (256 ^ (t.length - 1 - i) * (256 * 256 ^ i)) + beInt t
              = 256 ^ (t.length - 1 - i) * (b.toNat * (256 * 256 ^ i)) + beInt t by ring,
          Nat.mul_add_div (by positivity),
          show b.toNat * (256 * 256 ^ i) + beInt t / 256 ^ (t.length - 1 - i)
              = beInt t / 256 ^ (t.length - 1 - i) + 2 ^ 8 * (b.toNat * 256 ^ i) by norm_num; ring,
          Nat.add_mul_mod_self_left]
      simp only [beBytes]
      exact List.map_congr_left e
    rw [hdiv, htail, ih]
    simp

/-- Two strings of one length with one value are equal. -/
theorem beInt_inj {s t : List Byte} (hl : s.length = t.length) (hv : beInt s = beInt t) : s = t := by
  rw [← beBytes_beInt s, ← beBytes_beInt t, hl, hv]

/-! ### XOR -/

@[simp] theorem length_xorBytes (s t : List Byte) : (xorBytes s t).length = min s.length t.length := by
  simp [xorBytes]

/-- XOR with one string twice restores the data. -/
theorem xorBytes_xorBytes (s t : List Byte) (h : s.length = t.length) : xorBytes s (xorBytes s t) = t := by
  induction s generalizing t with
  | nil => cases t with
    | nil => rfl
    | cons => simp at h
  | cons a s ih =>
    cases t with
    | nil => simp at h
    | cons b t =>
      simp only [List.length_cons, Nat.add_right_cancel_iff] at h
      have := ih t h
      simp only [xorBytes, List.zipWith_cons_cons] at this ⊢
      rw [this, ← BitVec.xor_assoc, BitVec.xor_self, BitVec.zero_xor]

theorem xorBytes_comm (s t : List Byte) : xorBytes s t = xorBytes t s := by
  simp only [xorBytes]
  exact List.zipWith_comm_of_comm (fun a b => BitVec.xor_comm a b)

/-! ### Bits -/

theorem getLsbD_putBit (x : Byte) (k j : Nat) (b : Bool) (hk : k < 8) :
    (putBit x k b).getLsbD j = if j = k then b else x.getLsbD j := by
  unfold putBit
  cases b
  · simp only [Bool.false_eq_true, if_false, BitVec.getLsbD_and, BitVec.getLsbD_not, BitVec.getLsbD_shiftLeft,
      BitVec.getLsbD_one]
    split
    · subst_vars; simp [hk]
    · rcases Nat.lt_or_ge j 8 with hj | hj
      · by_cases hjk : j < k
        · simp [hjk, hj]
        · have : ¬ j - k = 0 := by omega
          simp [hj, this]
      · simp [BitVec.getLsbD_of_ge _ _ hj]
  · simp only [if_true, BitVec.getLsbD_or, BitVec.getLsbD_shiftLeft, BitVec.getLsbD_one]
    split
    · subst_vars; simp [hk]
    · by_cases hjk : j < k
      · simp [hjk]
      · have : ¬ j - k = 0 := by omega
        simp [this]

@[simp] theorem length_setbit (s : List Byte) (i : Nat) (b : Bool) : (setbit s i b).length = s.length := by
  simp [setbit]

/-- A bit read after a bit is replaced. -/
theorem getbit_setbit (s : List Byte) (i j : Nat) (b : Bool) (hi : i < 8 * s.length) :
    getbit (setbit s i b) j = if j = i then b else getbit s j := by
  have hi8 : i / 8 < s.length := by omega
  simp only [getbit, setbit, List.getD_eq_getElem?_getD]
  by_cases hq : i / 8 = j / 8
  · rw [← hq, List.getElem?_set_self hi8, Option.getD_some, getLsbD_putBit _ _ _ _ (by omega)]
    by_cases hij : j = i
    · simp [hij]
    · have : ¬ (7 - j % 8 = 7 - i % 8) := by omega
      simp [hij, this]
  · rw [List.getElem?_set_ne hq]
    have : ¬ j = i := by rintro rfl; exact hq rfl
    simp [this]

/-- Bits beyond the end of a string read false. -/
theorem getbit_of_ge (s : List Byte) (i : Nat) (h : 8 * s.length ≤ i) : getbit s i = false := by
  have : s.length ≤ i / 8 := by omega
  simp [getbit, List.getD_eq_getElem?_getD, List.getElem?_eq_none this]

/-- Two strings of one length with the same bits are equal. -/
theorem eq_of_getbit {s t : List Byte} (hl : s.length = t.length)
    (h : ∀ i < 8 * s.length, getbit s i = getbit t i) : s = t := by
  apply List.ext_getElem hl
  intro k hk hk'
  apply BitVec.eq_of_getLsbD_eq
  intro j hj
  have := h (8 * k + (7 - j)) (by omega)
  have hd : (8 * k + (7 - j)) / 8 = k := by omega
  have hm : 7 - (8 * k + (7 - j)) % 8 = j := by omega
  unfold getbit at this
  rw [hd, hm] at this
  simpa [List.getD_eq_getElem?_getD, hk, hk'] using this

/-- Bits of the XOR of two strings of one length. -/
theorem getbit_xorBytes (s t : List Byte) (h : s.length = t.length) (i : Nat) :
    getbit (xorBytes s t) i = (getbit s i ^^ getbit t i) := by
  rcases Nat.lt_or_ge (i / 8) s.length with hi | hi
  · have hi' : i / 8 < t.length := h ▸ hi
    simp [getbit, xorBytes, List.getD_eq_getElem?_getD, hi, hi']
  · rw [getbit_of_ge _ _ (by simp; omega), getbit_of_ge s _ (by omega), getbit_of_ge t _ (by omega)]
    rfl

/-! ### Bus lanes -/

@[simp] theorem length_laneBytes (n : Nat) (v : Word) : (laneBytes n v).length = n := by simp [laneBytes]

/-- One byte of an XOR. -/
theorem getD_xorBytes (s t : List Byte) (h : s.length = t.length) (k : Nat) :
    (xorBytes s t).getD k 0#8 = s.getD k 0#8 ^^^ t.getD k 0#8 := by
  by_cases hk : k < s.length
  · have hk' : k < t.length := h ▸ hk
    simp [xorBytes, List.getD_eq_getElem?_getD, hk, hk']
  · have hk' : ¬ k < t.length := h ▸ hk
    simp [xorBytes, List.getD_eq_getElem?_getD, hk, hk']

/-- The lanes of a bus word read from n bytes are those bytes, and nothing stands above them (20_memory.md R46). -/
theorem laneWord_lanes (s : List Byte) (n : Nat) (hn : n = 1 ∨ n = 2 ∨ n = 4) (hl : s.length = n) :
    (laneWord s).toNat < 256 ^ n ∧ ∀ k < n, (laneWord s).extractLsb' (8 * k) 8 = s.getD k 0#8 := by
  have h0 := beInt_lt s.reverse
  simp only [List.length_reverse, hl] at h0
  have hn4 : 256 ^ n ≤ 2 ^ 32 := by rcases hn with rfl | rfl | rfl <;> norm_num
  have ht : (laneWord s).toNat = beInt s.reverse := by
    have e : s.foldr (fun b v => v * 256 + b.toNat) 0 = beInt s.reverse := by simp [beInt, List.foldl_reverse]
    rw [laneWord, BitVec.toNat_ofNat, e, Nat.mod_eq_of_lt (by omega)]
  refine ⟨by omega, fun k hk => ?_⟩
  apply BitVec.eq_of_toNat_eq
  rw [BitVec.extractLsb'_toNat, ht]
  rcases hn with rfl | rfl | rfl
  · match s, hl with
    | [a], _ =>
      obtain rfl : k = 0 := by omega
      simp [beInt]; omega
  · match s, hl with
    | [a, b], _ =>
      have := a.isLt; have := b.isLt
      interval_cases k <;> simp [beInt, Nat.shiftRight_eq_div_pow] <;> omega
  · match s, hl with
    | [a, b, c, d], _ =>
      have := a.isLt; have := b.isLt; have := c.isLt; have := d.isLt
      interval_cases k <;> simp [beInt, Nat.shiftRight_eq_div_pow] <;> omega

end Sys2Proof.Machine
end

