-- ==== Sys2Proof/Laws/Memory.lean ====
section
/-! SUPPORT. The operand buffer: reads after writes, the canonical form, and that equal reads mean equal buffers. -/

namespace Sys2Proof.Machine

/-! ### Reading lists of cells -/

theorem Memory.read_cons (k : Nat) (b : Byte) (m : Memory) (a : Nat) :
    Memory.read ((k, b) :: m) a = if k = a then b else Memory.read m a := rfl

theorem Memory.read_of_not_mem (m : Memory) (a : Nat) (h : ∀ c ∈ m, c.1 ≠ a) : Memory.read m a = 0#8 := by
  induction m with
  | nil => rfl
  | cons c m ih =>
    obtain ⟨k, b⟩ := c
    rw [Memory.read_cons, if_neg (h (k, b) (by simp)), ih fun c hc => h c (by simp [hc])]

theorem Memory.read_append_left (m m' : Memory) (a : Nat) (h : ∀ c ∈ m', c.1 ≠ a) :
    Memory.read (m ++ m') a = Memory.read m a := by
  induction m with
  | nil => exact Memory.read_of_not_mem m' a h
  | cons c m ih => obtain ⟨k, b⟩ := c; simp only [List.cons_append, Memory.read_cons, ih]

theorem Memory.read_append_right (m m' : Memory) (a : Nat) (h : ∀ c ∈ m, c.1 ≠ a) :
    Memory.read (m ++ m') a = Memory.read m' a := by
  induction m with
  | nil => rfl
  | cons c m ih =>
    obtain ⟨k, b⟩ := c
    rw [List.cons_append, Memory.read_cons, if_neg (h (k, b) (by simp)), ih fun c hc => h c (by simp [hc])]

theorem Memory.read_filter (m : Memory) (p : Nat → Bool) (a : Nat) (hp : p a = true) :
    Memory.read (m.filter fun x => p x.1) a = Memory.read m a := by
  induction m with
  | nil => rfl
  | cons c m ih =>
    obtain ⟨k, b⟩ := c
    by_cases hk : p k = true
    · rw [List.filter_cons_of_pos (by simpa using hk), Memory.read_cons, Memory.read_cons, ih]
    · have hne : k ≠ a := by rintro rfl; exact hk hp
      rw [List.filter_cons_of_neg (by simpa using hk), Memory.read_cons, if_neg hne, ih]

theorem mem_cellsOf (a : Nat) (bs : List Byte) (c : Host.Cell) (h : c ∈ cellsOf a bs) :
    a ≤ c.1 ∧ c.1 < a + bs.length ∧ c.2 ≠ 0#8 := by
  induction bs generalizing a with
  | nil => simp [cellsOf] at h
  | cons b bs ih =>
    unfold cellsOf at h
    split at h
    · have := ih (a + 1) h
      simp only [List.length_cons]; exact ⟨by omega, by omega, this.2.2⟩
    · rename_i hb
      rcases List.mem_cons.1 h with rfl | h
      · simp [hb]
      · have := ih (a + 1) h
        simp only [List.length_cons]; exact ⟨by omega, by omega, this.2.2⟩

theorem Memory.read_cellsOf (a : Nat) (bs : List Byte) (i : Nat) (hi : i < bs.length) :
    Memory.read (cellsOf a bs) (a + i) = bs[i] := by
  induction bs generalizing a i with
  | nil => simp at hi
  | cons b bs ih =>
    unfold cellsOf
    cases i with
    | zero =>
      split
      · rename_i hb
        rw [Memory.read_of_not_mem]
        · simp [hb]
        · intro c hc; have := mem_cellsOf _ _ c hc; omega
      · simp [Memory.read_cons]
    | succ i =>
      have := ih (a + 1) i (by simpa using hi)
      rw [show a + 1 + i = a + (i + 1) by omega] at this
      split
      · simpa using this
      · rw [Memory.read_cons, if_neg (by omega)]; simpa using this

/-! ### Reads after a write -/

/-- A byte of the string just written. -/
theorem Memory.read_writeBytes_inside (m : Memory) (a : Nat) (bs : List Byte) (i : Nat) (hi : i < bs.length) :
    Memory.read (Memory.writeBytes m a bs) (a + i) = bs[i] := by
  unfold Memory.writeBytes
  rw [Memory.read_append_left, Memory.read_append_right, Memory.read_cellsOf _ _ _ hi]
  · intro c hc; have := List.of_mem_filter hc; simp at this; omega
  · intro c hc; have := List.of_mem_filter hc; simp at this; omega

/-- A byte outside the string just written. -/
theorem Memory.read_writeBytes_outside (m : Memory) (a : Nat) (bs : List Byte) (x : Nat)
    (h : x < a ∨ a + bs.length ≤ x) : Memory.read (Memory.writeBytes m a bs) x = Memory.read m x := by
  unfold Memory.writeBytes
  rcases h with h | h
  · rw [List.append_assoc, Memory.read_append_left]
    · exact Memory.read_filter m (fun k => decide (k < a)) x (by simpa using h)
    · intro c hc
      rcases List.mem_append.1 hc with hc | hc
      · have := mem_cellsOf _ _ c hc; omega
      · have := List.of_mem_filter hc; simp at this; omega
  · rw [Memory.read_append_right]
    · exact Memory.read_filter m (fun k => decide (a + bs.length ≤ k)) x (by simpa using h)
    · intro c hc
      rcases List.mem_append.1 hc with hc | hc
      · have := List.of_mem_filter hc; simp at this; omega
      · have := mem_cellsOf _ _ c hc; omega

/-- One byte after a write of a string. -/
theorem Memory.read_writeBytes (m : Memory) (a : Nat) (bs : List Byte) (x : Nat) :
    Memory.read (Memory.writeBytes m a bs) x
      = if a ≤ x ∧ x < a + bs.length then bs.getD (x - a) 0#8 else Memory.read m x := by
  split
  · rename_i h
    have hi : x - a < bs.length := by omega
    have := Memory.read_writeBytes_inside m a bs (x - a) hi
    rw [show a + (x - a) = x by omega] at this
    rw [this, List.getD_eq_getElem _ _ hi]
  · exact Memory.read_writeBytes_outside m a bs x (by omega)

/-! ### Strings -/

@[simp] theorem Memory.length_readBytes (m : Memory) (a n : Nat) : (Memory.readBytes m a n).length = n := by
  simp [Memory.readBytes]

@[simp] theorem Memory.getElem_readBytes (m : Memory) (a n i : Nat) (h : i < (Memory.readBytes m a n).length) :
    (Memory.readBytes m a n)[i] = Memory.read m (a + i) := by simp [Memory.readBytes]

theorem Memory.readBytes_congr (m m' : Memory) (a n : Nat)
    (h : ∀ i < n, Memory.read m (a + i) = Memory.read m' (a + i)) :
    Memory.readBytes m a n = Memory.readBytes m' a n := by
  apply List.ext_getElem (by simp)
  intro i h1 h2
  simpa using h i (by simpa using h1)

/-- The string just written reads back. -/
theorem Memory.readBytes_writeBytes (m : Memory) (a : Nat) (bs : List Byte) :
    Memory.readBytes (Memory.writeBytes m a bs) a bs.length = bs := by
  apply List.ext_getElem (by simp)
  intro i h1 h2
  simp [Memory.read_writeBytes_inside m a bs i h2]

/-- A string clear of the one just written reads as before. -/
theorem Memory.readBytes_writeBytes_disjoint (m : Memory) (a : Nat) (bs : List Byte) (x n : Nat)
    (h : x + n ≤ a ∨ a + bs.length ≤ x) :
    Memory.readBytes (Memory.writeBytes m a bs) x n = Memory.readBytes m x n := by
  apply Memory.readBytes_congr
  intro i hi
  exact Memory.read_writeBytes_outside m a bs (x + i) (by omega)

/-! ### The canonical form -/

theorem Memory.wf_iff (m : Memory) :
    Memory.wf m = true ↔ m.Pairwise (fun x y => x.1 < y.1) ∧ ∀ x ∈ m, x.2 ≠ 0#8 := by
  simp [Memory.wf]

theorem Memory.wf_nil : Memory.wf [] = true := by decide

theorem pairwise_cellsOf (a : Nat) (bs : List Byte) : (cellsOf a bs).Pairwise fun x y => x.1 < y.1 := by
  induction bs generalizing a with
  | nil => simp [cellsOf]
  | cons b bs ih =>
    unfold cellsOf
    split
    · exact ih (a + 1)
    · refine List.pairwise_cons.2 ⟨fun c hc => ?_, ih (a + 1)⟩
      have := mem_cellsOf _ _ c hc
      simp only; omega

/-- A write keeps the canonical form. -/
theorem Memory.wf_writeBytes (m : Memory) (a : Nat) (bs : List Byte) (h : Memory.wf m = true) :
    Memory.wf (Memory.writeBytes m a bs) = true := by
  rw [Memory.wf_iff] at h ⊢
  obtain ⟨hs, hz⟩ := h
  constructor
  · unfold Memory.writeBytes
    rw [List.append_assoc, List.pairwise_append, List.pairwise_append]
    refine ⟨hs.filter _, ⟨pairwise_cellsOf _ _, hs.filter _, ?_⟩, ?_⟩
    · intro x hx y hy
      have h1 := mem_cellsOf _ _ x hx
      have h2 := List.of_mem_filter hy
      simp at h2; omega
    · intro x hx y hy
      have h1 := List.of_mem_filter hx
      simp at h1
      rcases List.mem_append.1 hy with hy | hy
      · have := mem_cellsOf _ _ y hy; omega
      · have h2 := List.of_mem_filter hy; simp at h2; omega
  · intro x hx
    unfold Memory.writeBytes at hx
    rcases List.mem_append.1 hx with hx | hx
    · rcases List.mem_append.1 hx with hx | hx
      · exact hz x (List.mem_of_mem_filter hx)
      · exact (mem_cellsOf _ _ x hx).2.2
    · exact hz x (List.mem_of_mem_filter hx)

theorem Memory.within_iff (m : Memory) (n : Nat) : Memory.within m n = true ↔ ∀ x ∈ m, x.1 < n := by
  simp [Memory.within]

/-- A write in range keeps every listed offset below the size. -/
theorem Memory.within_writeBytes (m : Memory) (a : Nat) (bs : List Byte) (n : Nat)
    (h : Memory.within m n = true) (ha : a + bs.length ≤ n) :
    Memory.within (Memory.writeBytes m a bs) n = true := by
  rw [Memory.within_iff] at h ⊢
  intro x hx
  unfold Memory.writeBytes at hx
  rcases List.mem_append.1 hx with hx | hx
  · rcases List.mem_append.1 hx with hx | hx
    · exact h x (List.mem_of_mem_filter hx)
    · have := mem_cellsOf _ _ x hx; omega
  · exact h x (List.mem_of_mem_filter hx)

@[simp] theorem Memory.writeAll_nil (m : Memory) : Memory.writeAll m [] = m := rfl

@[simp] theorem Memory.writeAll_cons (m : Memory) (w : Nat × List Byte) (ws : List (Nat × List Byte)) :
    Memory.writeAll m (w :: ws) = Memory.writeAll (Memory.writeBytes m w.1 w.2) ws := rfl

theorem Memory.wf_writeAll (m : Memory) (ws : List (Nat × List Byte)) (h : Memory.wf m = true) :
    Memory.wf (Memory.writeAll m ws) = true := by
  induction ws generalizing m with
  | nil => exact h
  | cons w ws ih => exact ih _ (Memory.wf_writeBytes m w.1 w.2 h)

theorem Memory.within_writeAll (m : Memory) (ws : List (Nat × List Byte)) (n : Nat)
    (h : Memory.within m n = true) (hw : ∀ w ∈ ws, w.1 + w.2.length ≤ n) :
    Memory.within (Memory.writeAll m ws) n = true := by
  induction ws generalizing m with
  | nil => exact h
  | cons w ws ih =>
    exact ih _ (Memory.within_writeBytes m w.1 w.2 n h (hw w (by simp))) fun w' h' => hw w' (by simp [h'])

/-- A byte that no staged write covers. -/
theorem Memory.read_writeAll_outside (m : Memory) (ws : List (Nat × List Byte)) (x : Nat)
    (h : ∀ w ∈ ws, x < w.1 ∨ w.1 + w.2.length ≤ x) : Memory.read (Memory.writeAll m ws) x = Memory.read m x := by
  induction ws generalizing m with
  | nil => rfl
  | cons w ws ih =>
    rw [Memory.writeAll_cons, ih _ fun w' h' => h w' (by simp [h'])]
    exact Memory.read_writeBytes_outside m w.1 w.2 x (h w (by simp))

/-- A byte that one staged write covers and no later one does. -/
theorem Memory.read_writeAll_append (m : Memory) (us vs : List (Nat × List Byte)) (w : Nat × List Byte) (i : Nat)
    (hi : i < w.2.length) (h : ∀ v ∈ vs, w.1 + i < v.1 ∨ v.1 + v.2.length ≤ w.1 + i) :
    Memory.read (Memory.writeAll m (us ++ w :: vs)) (w.1 + i) = w.2[i] := by
  have hsplit : Memory.writeAll m (us ++ w :: vs)
      = Memory.writeAll (Memory.writeBytes (Memory.writeAll m us) w.1 w.2) vs := by
    simp [Memory.writeAll, List.foldl_append]
  rw [hsplit, Memory.read_writeAll_outside _ _ _ h]
  exact Memory.read_writeBytes_inside _ _ _ _ hi

/-- Two canonical buffers that read alike are equal. -/
theorem Memory.eq_of_read (m m' : Memory) (h : Memory.wf m = true) (h' : Memory.wf m' = true)
    (hr : ∀ a, Memory.read m a = Memory.read m' a) : m = m' := by
  rw [Memory.wf_iff] at h h'
  induction m generalizing m' with
  | nil =>
    cases m' with
    | nil => rfl
    | cons c m' =>
      obtain ⟨k, b⟩ := c
      have := hr k
      rw [Memory.read_cons, if_pos rfl] at this
      exact absurd this.symm (h'.2 (k, b) (by simp))
  | cons c m ih =>
    obtain ⟨k, b⟩ := c
    have hkb : b ≠ 0#8 := h.2 (k, b) (by simp)
    have hlow := (List.pairwise_cons.1 h.1).1
    cases m' with
    | nil =>
      have := hr k
      rw [Memory.read_cons, if_pos rfl] at this
      exact absurd this hkb
    | cons c' m' =>
      obtain ⟨k', b'⟩ := c'
      have hkb' : b' ≠ 0#8 := h'.2 (k', b') (by simp)
      have hlow' := (List.pairwise_cons.1 h'.1).1
      have hk : k = k' := by
        rcases Nat.lt_trichotomy k k' with hlt | heq | hgt
        · have := hr k
          rw [Memory.read_cons, if_pos rfl, Memory.read_of_not_mem] at this
          · exact absurd this hkb
          · intro c hc
            rcases List.mem_cons.1 hc with rfl | hc
            · simp only; omega
            · have := hlow' c hc; simp only at this; omega
        · exact heq
        · have := hr k'
          rw [Memory.read_cons (a := k') (k := k'), if_pos rfl, Memory.read_of_not_mem] at this
          · exact absurd this.symm hkb'
          · intro c hc
            rcases List.mem_cons.1 hc with rfl | hc
            · simp only; omega
            · have := hlow c hc; simp only at this; omega
      subst hk
      have hb := hr k
      rw [Memory.read_cons, Memory.read_cons, if_pos rfl, if_pos rfl] at hb
      subst hb
      congr 1
      refine ih m' ⟨(List.pairwise_cons.1 h.1).2, fun x hx => h.2 x (by simp [hx])⟩
        ⟨(List.pairwise_cons.1 h'.1).2, fun x hx => h'.2 x (by simp [hx])⟩ fun a => ?_
      have := hr a
      rw [Memory.read_cons, Memory.read_cons] at this
      by_cases hka : k = a
      · rw [Memory.read_of_not_mem, Memory.read_of_not_mem]
        · intro c hc; have := hlow' c hc; simp only at this; omega
        · intro c hc; have := hlow c hc; simp only at this; omega
      · rwa [if_neg hka, if_neg hka] at this

/-- One bit of a string read from the buffer, counting from the most significant bit of each byte. -/
theorem getbit_readBytes (m : Memory) (a n i : Nat) (h : i < 8 * n) :
    getbit (Memory.readBytes m a n) i = (Memory.read m (a + i / 8)).getLsbD (7 - i % 8) := by
  have : i / 8 < n := by omega
  simp [getbit, Memory.readBytes, List.getD_eq_getElem?_getD, this]

end Sys2Proof.Machine
end

