-- ==== Sys2Proof/Laws/State.lean ====
section
/-! SUPPORT. One lemma per field of State for each named update of a state, so that no later proof unfolds the update. -/

namespace Sys2Proof.Machine

/-! ### State.accept -/

@[simp] theorem State.accept_irqEn (s : State) (w : Word) : (State.accept s w).irqEn = s.irqEn := rfl
@[simp] theorem State.accept_done (s : State) (w : Word) : (State.accept s w).done = false := rfl
@[simp] theorem State.accept_err (s : State) (w : Word) : (State.accept s w).err = false := rfl
@[simp] theorem State.accept_ovr (s : State) (w : Word) : (State.accept s w).ovr = s.ovr := rfl
@[simp] theorem State.accept_errcode (s : State) (w : Word) : (State.accept s w).errcode = 0x00#8 := rfl
@[simp] theorem State.accept_cmd (s : State) (w : Word) : (State.accept s w).cmd = w := rfl
@[simp] theorem State.accept_args (s : State) (w : Word) : (State.accept s w).args = s.args := rfl
@[simp] theorem State.accept_result (s : State) (w : Word) : (State.accept s w).result = 0#32 := rfl
@[simp] theorem State.accept_cmdcnt (s : State) (w : Word) : (State.accept s w).cmdcnt = s.cmdcnt + 1#32 := rfl
@[simp] theorem State.accept_p (s : State) (w : Word) : (State.accept s w).p = s.p := rfl
@[simp] theorem State.accept_q (s : State) (w : Word) : (State.accept s w).q = s.q := rfl
@[simp] theorem State.accept_g (s : State) (w : Word) : (State.accept s w).g = s.g := rfl
@[simp] theorem State.accept_buf (s : State) (w : Word) : (State.accept s w).buf = s.buf := rfl
@[simp] theorem State.accept_inflight (s : State) (w : Word) : (State.accept s w).inflight = some ⟨w, s.args, State.snapshot s⟩ := rfl
@[simp] theorem State.accept_pending (s : State) (w : Word) : (State.accept s w).pending = s.pending := rfl
@[simp] theorem State.accept_reply (s : State) (w : Word) : (State.accept s w).reply = s.reply := rfl

/-! ### State.fail -/

@[simp] theorem State.fail_irqEn (s : State) (e : ErrCode) : (State.fail s e).irqEn = s.irqEn := rfl
@[simp] theorem State.fail_done (s : State) (e : ErrCode) : (State.fail s e).done = s.done := rfl
@[simp] theorem State.fail_err (s : State) (e : ErrCode) : (State.fail s e).err = true := rfl
@[simp] theorem State.fail_ovr (s : State) (e : ErrCode) : (State.fail s e).ovr = s.ovr := rfl
@[simp] theorem State.fail_errcode (s : State) (e : ErrCode) : (State.fail s e).errcode = errCodeBits e := rfl
@[simp] theorem State.fail_cmd (s : State) (e : ErrCode) : (State.fail s e).cmd = s.cmd := rfl
@[simp] theorem State.fail_args (s : State) (e : ErrCode) : (State.fail s e).args = s.args := rfl
@[simp] theorem State.fail_result (s : State) (e : ErrCode) : (State.fail s e).result = s.result := rfl
@[simp] theorem State.fail_cmdcnt (s : State) (e : ErrCode) : (State.fail s e).cmdcnt = s.cmdcnt := rfl
@[simp] theorem State.fail_p (s : State) (e : ErrCode) : (State.fail s e).p = s.p := rfl
@[simp] theorem State.fail_q (s : State) (e : ErrCode) : (State.fail s e).q = s.q := rfl
@[simp] theorem State.fail_g (s : State) (e : ErrCode) : (State.fail s e).g = s.g := rfl
@[simp] theorem State.fail_buf (s : State) (e : ErrCode) : (State.fail s e).buf = s.buf := rfl
@[simp] theorem State.fail_inflight (s : State) (e : ErrCode) : (State.fail s e).inflight = none := rfl
@[simp] theorem State.fail_pending (s : State) (e : ErrCode) : (State.fail s e).pending = s.pending := rfl
@[simp] theorem State.fail_reply (s : State) (e : ErrCode) : (State.fail s e).reply = s.reply := rfl

/-! ### State.commit -/

@[simp] theorem State.commit_irqEn (s : State) (st : Staged) : (State.commit s st).irqEn = s.irqEn := rfl
@[simp] theorem State.commit_done (s : State) (st : Staged) : (State.commit s st).done = true := rfl
@[simp] theorem State.commit_err (s : State) (st : Staged) : (State.commit s st).err = s.err := rfl
@[simp] theorem State.commit_ovr (s : State) (st : Staged) : (State.commit s st).ovr = s.ovr := rfl
@[simp] theorem State.commit_errcode (s : State) (st : Staged) : (State.commit s st).errcode = s.errcode := rfl
@[simp] theorem State.commit_cmd (s : State) (st : Staged) : (State.commit s st).cmd = s.cmd := rfl
@[simp] theorem State.commit_args (s : State) (st : Staged) : (State.commit s st).args = s.args := rfl
@[simp] theorem State.commit_result (s : State) (st : Staged) : (State.commit s st).result = st.result := rfl
@[simp] theorem State.commit_cmdcnt (s : State) (st : Staged) : (State.commit s st).cmdcnt = s.cmdcnt := rfl
@[simp] theorem State.commit_p (s : State) (st : Staged) : (State.commit s st).p = st.p.getD s.p := rfl
@[simp] theorem State.commit_q (s : State) (st : Staged) : (State.commit s st).q = st.q.getD s.q := rfl
@[simp] theorem State.commit_g (s : State) (st : Staged) : (State.commit s st).g = st.g.getD s.g := rfl
@[simp] theorem State.commit_buf (s : State) (st : Staged) : (State.commit s st).buf = Memory.writeAll s.buf st.writes := rfl
@[simp] theorem State.commit_inflight (s : State) (st : Staged) : (State.commit s st).inflight = none := rfl
@[simp] theorem State.commit_pending (s : State) (st : Staged) : (State.commit s st).pending = s.pending := rfl
@[simp] theorem State.commit_reply (s : State) (st : Staged) : (State.commit s st).reply = s.reply := rfl

/-! ### State.softReset -/

@[simp] theorem State.softReset_irqEn (s : State) : (State.softReset s).irqEn = State.reset.irqEn := rfl
@[simp] theorem State.softReset_done (s : State) : (State.softReset s).done = State.reset.done := rfl
@[simp] theorem State.softReset_err (s : State) : (State.softReset s).err = State.reset.err := rfl
@[simp] theorem State.softReset_ovr (s : State) : (State.softReset s).ovr = State.reset.ovr := rfl
@[simp] theorem State.softReset_errcode (s : State) : (State.softReset s).errcode = State.reset.errcode := rfl
@[simp] theorem State.softReset_cmd (s : State) : (State.softReset s).cmd = State.reset.cmd := rfl
@[simp] theorem State.softReset_args (s : State) : (State.softReset s).args = State.reset.args := rfl
@[simp] theorem State.softReset_result (s : State) : (State.softReset s).result = State.reset.result := rfl
@[simp] theorem State.softReset_cmdcnt (s : State) : (State.softReset s).cmdcnt = State.reset.cmdcnt := rfl
@[simp] theorem State.softReset_p (s : State) : (State.softReset s).p = State.reset.p := rfl
@[simp] theorem State.softReset_q (s : State) : (State.softReset s).q = State.reset.q := rfl
@[simp] theorem State.softReset_g (s : State) : (State.softReset s).g = State.reset.g := rfl
@[simp] theorem State.softReset_buf (s : State) : (State.softReset s).buf = State.reset.buf := rfl
@[simp] theorem State.softReset_inflight (s : State) : (State.softReset s).inflight = State.reset.inflight := rfl
@[simp] theorem State.softReset_pending (s : State) : (State.softReset s).pending = s.pending := rfl
@[simp] theorem State.softReset_reply (s : State) : (State.softReset s).reply = s.reply := rfl

/-! ### State.statusWrite -/

@[simp] theorem State.statusWrite_irqEn (s : State) (v : Word) : (State.statusWrite s v).irqEn = s.irqEn := rfl
@[simp] theorem State.statusWrite_done (s : State) (v : Word) : (State.statusWrite s v).done = (s.done && !v.getLsbD 1) := rfl
@[simp] theorem State.statusWrite_err (s : State) (v : Word) : (State.statusWrite s v).err = (s.err && !v.getLsbD 2) := rfl
@[simp] theorem State.statusWrite_ovr (s : State) (v : Word) : (State.statusWrite s v).ovr = (s.ovr && !v.getLsbD 3) := rfl
@[simp] theorem State.statusWrite_errcode (s : State) (v : Word) : (State.statusWrite s v).errcode = (if v.getLsbD 2 then 0x00#8 else s.errcode) := rfl
@[simp] theorem State.statusWrite_cmd (s : State) (v : Word) : (State.statusWrite s v).cmd = s.cmd := rfl
@[simp] theorem State.statusWrite_args (s : State) (v : Word) : (State.statusWrite s v).args = s.args := rfl
@[simp] theorem State.statusWrite_result (s : State) (v : Word) : (State.statusWrite s v).result = s.result := rfl
@[simp] theorem State.statusWrite_cmdcnt (s : State) (v : Word) : (State.statusWrite s v).cmdcnt = s.cmdcnt := rfl
@[simp] theorem State.statusWrite_p (s : State) (v : Word) : (State.statusWrite s v).p = s.p := rfl
@[simp] theorem State.statusWrite_q (s : State) (v : Word) : (State.statusWrite s v).q = s.q := rfl
@[simp] theorem State.statusWrite_g (s : State) (v : Word) : (State.statusWrite s v).g = s.g := rfl
@[simp] theorem State.statusWrite_buf (s : State) (v : Word) : (State.statusWrite s v).buf = s.buf := rfl
@[simp] theorem State.statusWrite_inflight (s : State) (v : Word) : (State.statusWrite s v).inflight = s.inflight := rfl
@[simp] theorem State.statusWrite_pending (s : State) (v : Word) : (State.statusWrite s v).pending = s.pending := rfl
@[simp] theorem State.statusWrite_reply (s : State) (v : Word) : (State.statusWrite s v).reply = s.reply := rfl

/-! ### Reset and the snapshot -/

@[simp] theorem State.softReset_busy (s : State) : State.busy (State.softReset s) = false := rfl
@[simp] theorem State.accept_busy (s : State) (w : Word) : State.busy (State.accept s w) = true := rfl
@[simp] theorem State.fail_busy (s : State) (e : ErrCode) : State.busy (State.fail s e) = false := rfl
@[simp] theorem State.commit_busy (s : State) (st : Staged) : State.busy (State.commit s st) = false := rfl
@[simp] theorem State.snapshot_buf (s : State) : (State.snapshot s).buf = s.buf := rfl
@[simp] theorem State.snapshot_p (s : State) : (State.snapshot s).p = s.p := rfl
@[simp] theorem State.snapshot_q (s : State) : (State.snapshot s).q = s.q := rfl
@[simp] theorem State.snapshot_g (s : State) : (State.snapshot s).g = s.g := rfl

/-! ### The end of a command -/

@[simp] theorem State.finish_error (s : State) (e : ErrCode) : State.finish s (.error e) = State.fail s e := rfl
@[simp] theorem State.finish_ok (s : State) (st : Staged) : State.finish s (.ok st) = State.commit s st := rfl

theorem State.complete_none (s : State) (body : InFlight → Except ErrCode Staged) (h : s.inflight = none) :
    State.complete s body = s := by simp [State.complete, h]

theorem State.complete_some (s : State) (body : InFlight → Except ErrCode Staged) (f : InFlight)
    (h : s.inflight = some f) : State.complete s body = State.finish s (body f) := by simp [State.complete, h]

/-- Everything the completion step can do: nothing while IDLE, an error, or a commit. -/
theorem State.complete_cases (s : State) (body : InFlight → Except ErrCode Staged) :
    (s.inflight = none ∧ State.complete s body = s)
    ∨ (∃ f e, s.inflight = some f ∧ body f = .error e ∧ State.complete s body = State.fail s e)
    ∨ (∃ f st, s.inflight = some f ∧ body f = .ok st ∧ State.complete s body = State.commit s st) := by
  rcases hf : s.inflight with _ | f
  · exact .inl ⟨rfl, State.complete_none s body hf⟩
  · rw [State.complete_some s body f hf]
    rcases hb : body f with e | st
    · exact .inr (.inl ⟨f, e, rfl, hb, rfl⟩)
    · exact .inr (.inr ⟨f, st, rfl, hb, rfl⟩)

/-- Everything a write to CTRL can do (10_state.md R19). -/
theorem State.ctrlWrite_cases (s : State) (v : Word) :
    (v.getLsbD 1 = true ∧ State.ctrlWrite s v = State.softReset s)
    ∨ (v.getLsbD 1 = false ∧ State.ctrlWrite s v = { s with irqEn := v.getLsbD 0 }) := by
  unfold State.ctrlWrite
  cases h : v.getLsbD 1 <;> simp

/-- Everything a write to CMD can do (10_state.md R21). -/
theorem State.cmdWrite_cases (s : State) (w : Word) :
    (∃ f, s.inflight = some f ∧ State.cmdWrite s w = { s with ovr := true })
    ∨ (s.inflight = none ∧ State.cmdWrite s w = State.accept s w) := by
  unfold State.cmdWrite State.busy
  rcases hf : s.inflight with _ | f
  · right; simp
  · left; exact ⟨f, rfl, by simp⟩

end Sys2Proof.Machine
end

