-- ==== Sys2Proof/Laws/Exec.lean ====
section
/-! SUPPORT. What the checks and the pseudocode of the commands can answer, said once. -/

namespace Sys2Proof.Machine

/-- The pseudocode of each command. -/
def bodyOf : Instr → Params → InFlight → Body
  | .nop => runNop
  | .ldp => runLdp
  | .ldq => runLdq
  | .ldg => runLdg
  | .stp => runStp
  | .stq => runStq
  | .stg => runStg
  | .clr => runClr
  | .modexp => runModexp
  | .modexpg => runModexpg
  | .modmul => runModmul
  | .modinv => runModinv
  | .qrtest => runQrtest
  | .gentest => runGentest
  | .paramchk => runParamchk
  | .encode => runEncode
  | .decode => runDecode
  | .kdf => runKdf
  | .kdfxor => runKdfxor
  | .pack => runPack
  | .transpose => runTranspose
  | .matxor => runMatxor

/-- Every command is the completion step with its pseudocode (60_exceptions.md R118). -/
theorem exec_eq_complete (i : Instr) (s : State) :
    exec i s = .next (State.complete s (bodyOf i Config.platform)) := by
  cases i <;> rfl

/-- Everything a command can do: nothing while IDLE, an error, or a commit of what its pseudocode stages. -/
theorem exec_cases (i : Instr) (s : State) :
    (s.inflight = none ∧ exec i s = .next s)
    ∨ (∃ f e, s.inflight = some f ∧ bodyOf i Config.platform f = .error e ∧ exec i s = .next (State.fail s e))
    ∨ (∃ f st, s.inflight = some f ∧ bodyOf i Config.platform f = .ok st
        ∧ exec i s = .next (State.commit s st)) := by
  rw [exec_eq_complete]
  rcases State.complete_cases s (bodyOf i Config.platform) with ⟨h, e⟩ | ⟨f, e, h, hb, he⟩ | ⟨f, st, h, hb, he⟩
  · exact .inl ⟨h, by rw [e]⟩
  · exact .inr (.inl ⟨f, e, h, hb, by rw [he]⟩)
  · exact .inr (.inr ⟨f, st, h, hb, by rw [he]⟩)

/-- A command whose pseudocode answers st commits it. -/
theorem exec_of_ok (i : Instr) (s : State) (f : InFlight) (st : Staged) (hf : s.inflight = some f)
    (h : bodyOf i Config.platform f = .ok st) : exec i s = .next (State.commit s st) := by
  rw [exec_eq_complete, State.complete_some s _ f hf, h, State.finish_ok]

/-- A command whose pseudocode raises an error ends with it. -/
theorem exec_of_error (i : Instr) (s : State) (f : InFlight) (e : ErrCode) (hf : s.inflight = some f)
    (h : bodyOf i Config.platform f = .error e) : exec i s = .next (State.fail s e) := by
  rw [exec_eq_complete, State.complete_some s _ f hf, h, State.finish_error]

/-! ### The checks -/

@[simp] theorem require_true (e : ErrCode) : require true e = .ok () := rfl
@[simp] theorem require_false (e : ErrCode) : require false e = .error e := rfl

@[simp] theorem ok_bind {α β : Type} (x : α) (k : α → Except ErrCode β) : (Except.ok x >>= k) = k x := rfl
@[simp] theorem error_bind {α β : Type} (e : ErrCode) (k : α → Except ErrCode β) :
    ((Except.error e : Except ErrCode α) >>= k) = .error e := rfl
@[simp] theorem pure_ok {α : Type} (x : α) : (pure x : Except ErrCode α) = .ok x := rfl

/-- A check passes exactly when its condition holds. -/
theorem require_bind_ok {β : Type} (b : Bool) (e : ErrCode) (k : Unit → Except ErrCode β) (x : β) :
    (require b e >>= k) = .ok x ↔ b = true ∧ k () = .ok x := by
  cases b <;> simp

/-- A check raises its error exactly when its condition fails. -/
theorem require_bind_error {β : Type} (b : Bool) (e x : ErrCode) (k : Unit → Except ErrCode β) :
    (require b e >>= k) = .error x ↔ (b = false ∧ e = x) ∨ (b = true ∧ k () = .error x) := by
  cases b <;> simp

theorem inRange_iff (c : Params) (a n : Nat) : inRange c a n = true ↔ a + n ≤ c.bufSize := by
  simp [inRange]

theorem inRange_false_iff (c : Params) (a n : Nat) : inRange c a n = false ↔ c.bufSize < a + n := by
  simp [inRange]

/-- The modulus check (41_modarith.md R87). -/
theorem checkModulus_eq (f : InFlight) :
    checkModulus f = if f.modulus % 2 = 1 ∧ 3 ≤ f.modulus then .ok f.modulus else .error .badModulus := by
  unfold checkModulus
  by_cases h : f.modulus % 2 = 1 ∧ 3 ≤ f.modulus
  · simp [h]
  · rw [if_neg h]
    have : (f.modulus % 2 == 1 && decide (3 ≤ f.modulus)) = false := by
      simpa [Bool.and_eq_false_iff] using fun h1 => not_le.1 fun h2 => h ⟨h1, h2⟩
    simp [this]

theorem checkModulus_bind_ok {β : Type} (f : InFlight) (k : Nat → Except ErrCode β) (x : β) :
    (checkModulus f >>= k) = .ok x ↔ (f.modulus % 2 = 1 ∧ 3 ≤ f.modulus) ∧ k f.modulus = .ok x := by
  rw [checkModulus_eq]
  split <;> simp_all

/-- The dimension check (43_bitmatrix.md R109). -/
theorem checkDims_eq (f : InFlight) :
    checkDims f = if f.arg3 % 8 = 0 ∧ f.arg4 % 8 = 0 then .ok (f.arg3, f.arg4) else .error .dim := by
  unfold checkDims
  by_cases h : f.arg3 % 8 = 0 ∧ f.arg4 % 8 = 0
  · simp [h]
  · rw [if_neg h]
    have : (f.arg3 % 8 == 0 && f.arg4 % 8 == 0) = false := by
      simpa [Bool.and_eq_false_iff] using fun h1 h2 => h ⟨h1, h2⟩
    simp [this]

theorem checkDims_bind_ok {β : Type} (f : InFlight) (k : Nat × Nat → Except ErrCode β) (x : β) :
    (checkDims f >>= k) = .ok x ↔ (f.arg3 % 8 = 0 ∧ f.arg4 % 8 = 0) ∧ k (f.arg3, f.arg4) = .ok x := by
  rw [checkDims_eq]
  split <;> simp_all

/-! ### Operands -/

@[simp] theorem length_memRead (f : InFlight) (a n : Nat) : (f.memRead a n).length = n := by
  simp [InFlight.memRead]

/-- A big-number operand lies in [0, 2^1024) (30_encoding.md R68). -/
theorem elem_lt (f : InFlight) (a : Nat) : f.elem a < 2 ^ 1024 := by
  have := beInt_lt (f.memRead a Config.elemBytes)
  rw [length_memRead] at this
  calc f.elem a < 256 ^ 128 := this
    _ = 2 ^ 1024 := by rw [show (256 : Nat) = 2 ^ 8 by norm_num, ← pow_mul]

theorem modulus_lt (f : InFlight) : f.modulus < 2 ^ 1024 := f.snap.p.isLt

/-! ### What the pseudocode stages -/

/-- DECODE once the element is folded (41_modarith.md R96). -/
theorem decodeFolded_ok (c : Params) (dst e : Nat) (st : Staged) :
    decodeFolded c dst e = .ok st ↔
      e ≠ 0 ∧ (bitLen e - 1) % 8 = 0 ∧ dst + (bitLen e - 1) / 8 ≤ c.bufSize
      ∧ st = { writes := [(dst, beBytes ((bitLen e - 1) / 8) (e - 2 ^ (bitLen e - 1)))]
               result := BitVec.ofNat 32 ((bitLen e - 1) / 8) } := by
  unfold decodeFolded
  simp only [require_bind_ok, bne_iff_ne, beq_iff_eq, inRange_iff, pure_ok, Except.ok.injEq, eq_comm (a := st)]

/-- DECODE's length is at most 127 (41_modarith.md R96). -/
theorem decoded_length_le (P e : Nat) (hP : P < 2 ^ 1024) (he : e < P) (hodd : P % 2 = 1) :
    (bitLen (foldElem P e) - 1) / 8 ≤ 127 := by
  have hfold : foldElem P e < 2 ^ 1023 := by
    have : P < 2 * 2 ^ 1023 := by rw [← pow_succ']; exact hP
    unfold foldElem halfOf
    split <;> omega
  by_cases h0 : foldElem P e = 0
  · simp [h0, bitLen]
  · have h1 := two_pow_bitLen_le _ h0
    have h2 : bitLen (foldElem P e) - 1 < 1023 :=
      (Nat.pow_lt_pow_iff_right (by norm_num)).1 (lt_of_le_of_lt h1 hfold)
    omega

theorem length_foldl_setbit (L : List Nat) (g : Nat → Nat) (b : Nat → Bool) (out : List Byte) :
    (L.foldl (fun out c => setbit out (g c) (b c)) out).length = out.length := by
  induction L generalizing out with
  | nil => rfl
  | cons x L ih => rw [List.foldl_cons, ih, length_setbit]

@[simp] theorem length_transposeRow (R C : Nat) (M out : List Byte) (r : Nat) :
    (transposeRow R C M out r).length = out.length := length_foldl_setbit _ _ _ _

/-- TRANSPOSE keeps the number of bytes (43_bitmatrix.md R111). -/
@[simp] theorem length_transposeBytes (R C : Nat) (M : List Byte) :
    (transposeBytes R C M).length = R * C / 8 := by
  have : ∀ (L : List Nat) (out : List Byte),
      (L.foldl (fun out r => transposeRow R C M out r) out).length = out.length := by
    intro L
    induction L with
    | nil => intro out; rfl
    | cons x L ih => intro out; rw [List.foldl_cons, ih, length_transposeRow]
  simp [transposeBytes, this]

@[simp] theorem length_hashChain (c : Params) (n : Nat) (blk : List Byte) (h : blk.length = c.hashLen) :
    (hashChain c.kdfH n blk).length = n * c.hashLen := by
  induction n generalizing blk with
  | zero => simp [hashChain]
  | succ n ih => rw [hashChain, List.length_append, ih _ (Params.length_kdfH c blk), h]; ring

/-- The pad has the length asked for (42_kdf.md R101). -/
@[simp] theorem length_kdfPad (c : Params) (L : Nat) (ds : Word) (seed : List Byte) :
    (kdfPad c L ds seed).length = L := by
  unfold kdfPad
  rw [List.length_take, length_hashChain _ _ _ (Params.length_kdfH c _)]
  have hp := Params.hashLen_pos c
  have h1 := Nat.div_add_mod (L + c.hashLen - 1) c.hashLen
  have h2 := Nat.mod_lt (L + c.hashLen - 1) hp
  have h3 := Nat.mul_comm ((L + c.hashLen - 1) / c.hashLen) c.hashLen
  omega

/-- MATXOR keeps the number of bytes (43_bitmatrix.md R112). -/
theorem length_xorColumns (C rb : Nat) (M V : List Byte) (hM : M.length = C * rb) (hV : V.length = rb) :
    (xorColumns C rb M V).length = C * rb := by
  unfold xorColumns
  rw [List.length_flatMap]
  have : (List.range C).map (fun k => (xorBytes ((M.drop (k * rb)).take rb) V).length)
      = (List.range C).map (fun _ => rb) := by
    apply List.map_congr_left
    intro k hk
    rw [List.mem_range] at hk
    rw [length_xorBytes, List.length_take, List.length_drop, hM, hV]
    have : (k + 1) * rb ≤ C * rb := Nat.mul_le_mul_right _ hk
    rw [Nat.add_mul] at this
    omega
  rw [this]; simp

/-- ROWS times COLS over 8 is the number of columns times their bytes, for ROWS a multiple of 8. -/
theorem dims_bytes (R C : Nat) (h : R % 8 = 0) : R * C / 8 = C * (R / 8) := by
  have h8 : R = 8 * (R / 8) := by omega
  conv_lhs => rw [h8, mul_assoc, Nat.mul_div_cancel_left _ (by norm_num : 0 < 8)]
  rw [mul_comm]

/-- Every byte a command stages lies in the buffer (20_memory.md R52). -/
theorem bodyOf_within (i : Instr) (c : Params) (f : InFlight) (st : Staged) (h : bodyOf i c f = .ok st) :
    ∀ w ∈ st.writes, w.1 + w.2.length ≤ c.bufSize := by
  intro w hw
  cases i <;>
    simp only [bodyOf, runNop, runLdp, runLdq, runLdg, runStp, runStq, runStg, runClr, runModexp, runModexpg, runModmul,
      runModinv, runQrtest, runGentest, runParamchk, runEncode, runDecode, runKdf, runKdfxor, runPack, runTranspose,
      runMatxor, require_bind_ok, checkModulus_bind_ok, checkDims_bind_ok, pure_ok, Except.ok.injEq, inRange_iff,
      Bool.and_eq_true, Bool.or_eq_true, decide_eq_true_eq, beq_iff_eq, decodeFolded_ok] at h
  case pack =>
    obtain ⟨⟨hR, -⟩, hd, -, rfl⟩ := h
    simp only [List.mem_map, List.mem_range] at hw
    obtain ⟨k, hk, rfl⟩ := hw
    rw [dims_bytes _ _ hR] at hd
    simp only [length_memRead]
    have : (k + 1) * (f.arg3 / 8) ≤ f.arg4 * (f.arg3 / 8) := Nat.mul_le_mul_right _ hk
    rw [Nat.add_mul] at this
    omega
  case matxor =>
    obtain ⟨⟨hR, -⟩, ⟨hd, -⟩, rfl⟩ := h
    simp only [stageBytes, List.mem_singleton] at hw
    subst hw
    rw [dims_bytes _ _ hR] at hd ⊢
    simp only [length_xorColumns _ _ _ _ (length_memRead _ _ _) (length_memRead _ _ _)]
    exact hd
  case decode =>
    obtain ⟨-, -, -, -, -, hd, rfl⟩ := h
    simp only [List.mem_singleton] at hw
    subst hw
    simpa using hd
  all_goals
    first
    | (subst h; simp at hw)
    | (obtain ⟨_, rfl⟩ := h; simp [stageTest, stageResult] at hw)
    | (obtain ⟨_, _, rfl⟩ := h; simp [stageTest, stageResult] at hw)
    | (obtain ⟨hd, rfl⟩ := h
       simp only [stageElem, stageBytes, List.mem_singleton] at hw
       subst hw
       simp [Config.elemBytes] at hd ⊢; omega)
    | (obtain ⟨_, hd, rfl⟩ := h
       simp only [stageElem, stageBytes, List.mem_singleton] at hw
       subst hw
       simp [Config.elemBytes] at hd ⊢; omega)
    | (obtain ⟨_, hd, _, rfl⟩ := h
       simp only [stageElem, stageBytes, List.mem_singleton] at hw
       subst hw
       simp [Config.elemBytes] at hd ⊢; omega)
    | (obtain ⟨_, _, hd, _, rfl⟩ := h
       simp only [stageElem, stageBytes, List.mem_singleton] at hw
       subst hw
       simp [Config.elemBytes] at hd ⊢; omega)

/-- RESULT is at most 127 (10_state.md R23). -/
theorem bodyOf_result_le (i : Instr) (c : Params) (f : InFlight) (st : Staged) (h : bodyOf i c f = .ok st) :
    st.result.toNat ≤ 127 := by
  cases i <;>
    simp only [bodyOf, runNop, runLdp, runLdq, runLdg, runStp, runStq, runStg, runClr, runModexp, runModexpg, runModmul,
      runModinv, runQrtest, runGentest, runParamchk, runEncode, runDecode, runKdf, runKdfxor, runPack, runTranspose,
      runMatxor, require_bind_ok, checkModulus_bind_ok, checkDims_bind_ok, pure_ok, Except.ok.injEq, inRange_iff,
      Bool.and_eq_true, Bool.or_eq_true, decide_eq_true_eq, beq_iff_eq, decodeFolded_ok] at h
  case decode =>
    obtain ⟨⟨hodd, -⟩, -, hlt, -, -, -, rfl⟩ := h
    have := decoded_length_le f.modulus (f.elem f.arg1) (modulus_lt f) hlt hodd
    simp only [BitVec.toNat_ofNat]
    omega
  all_goals
    first
    | (subst h; simp)
    | (obtain ⟨_, rfl⟩ := h; simp [stageElem, stageBytes, stageTest, stageResult]; try (split <;> simp))
    | (obtain ⟨_, _, rfl⟩ := h; simp [stageElem, stageBytes, stageTest, stageResult]; try (split <;> simp))
    | (obtain ⟨_, _, _, rfl⟩ := h; simp [stageElem, stageBytes])
    | (obtain ⟨_, _, _, _, rfl⟩ := h; simp [stageElem, stageBytes])

end Sys2Proof.Machine
end

