-- ==== Sys2Proof/Laws/BitMatrix.lean ====
section
/-! SUPPORT. The bits of the bit-matrix commands' results (43_bitmatrix.md R107 to R112). -/

namespace Sys2Proof.Machine

/-- The bits after a run of bit replacements at distinct places. -/
theorem getbit_foldl_setbit (n : Nat) (g : Nat → Nat) (b : Nat → Bool) (out : List Byte) (j : Nat)
    (hg : ∀ k < n, g k < 8 * out.length) (hinj : ∀ k < n, ∀ k' < n, g k = g k' → k = k') :
    getbit ((List.range n).foldl (fun out c => setbit out (g c) (b c)) out) j
      = if ∃ k < n, g k = j then b ((List.range n).find? (fun k => g k == j) |>.getD 0) else getbit out j := by
  induction n with
  | zero => simp
  | succ n ih =>
    have ih' := ih (fun k hk => hg k (by omega)) (fun k hk k' hk' => hinj k (by omega) k' (by omega))
    rw [List.range_succ, List.foldl_append, List.foldl_cons, List.foldl_nil, getbit_setbit, ih']
    · by_cases hj : j = g n
      · subst hj
        rw [if_pos rfl, if_pos ⟨n, by omega, rfl⟩]
        have : (List.range n).find? (fun k => g k == g n) = none := by
          rw [List.find?_eq_none]
          intro k hk hkn
          rw [List.mem_range] at hk
          have := hinj k (by omega) n (by omega) (by simpa using hkn)
          omega
        simp [List.find?_append, this]
      · rw [if_neg hj]
        by_cases hex : ∃ k < n, g k = j
        · obtain ⟨k, hk, rfl⟩ := hex
          rw [if_pos ⟨k, hk, rfl⟩, if_pos ⟨k, by omega, rfl⟩]
          have : ((List.range n).find? fun k' => g k' == g k).isSome := by
            rw [List.find?_isSome]; exact ⟨k, by simpa using hk, by simp⟩
          rw [List.find?_append, Option.or_of_isSome this]
        · rw [if_neg hex, if_neg]
          rintro ⟨k, hk, rfl⟩
          rcases Nat.lt_succ_iff_lt_or_eq.1 hk with hk | rfl
          · exact hex ⟨k, hk, rfl⟩
          · exact hj rfl
    · rw [length_foldl_setbit]; exact hg n (by omega)

/-- A row of the output of TRANSPOSE, bit by bit. -/
theorem getbit_transposeRow (R C : Nat) (M out : List Byte) (r j : Nat) (hlen : r * C + C ≤ 8 * out.length) :
    getbit (transposeRow R C M out r) j
      = if r * C ≤ j ∧ j < r * C + C then getbit M ((j - r * C) * R + r) else getbit out j := by
  unfold transposeRow
  rw [getbit_foldl_setbit C (fun c => r * C + c) (fun c => getbit M (c * R + r)) out j
    (fun k hk => by omega) (fun k _ k' _ h => by omega)]
  by_cases hj : r * C ≤ j ∧ j < r * C + C
  · have hex : ∃ k < C, r * C + k = j := ⟨j - r * C, by omega, by omega⟩
    rw [if_pos hex, if_pos hj]
    have hsome : ((List.range C).find? fun k => r * C + k == j).isSome := by
      rw [List.find?_isSome]
      obtain ⟨k, hk, e⟩ := hex
      exact ⟨k, by simpa using hk, by simpa using e⟩
    obtain ⟨k, hk⟩ := Option.isSome_iff_exists.1 hsome
    have := List.find?_some hk
    rw [hk, Option.getD_some]
    have hk' : k = j - r * C := by simp at this; omega
    rw [hk']
  · rw [if_neg hj, if_neg]
    rintro ⟨k, hk, rfl⟩
    exact hj ⟨by omega, by omega⟩

/-- The double loop, after its first n rows. -/
theorem getbit_transpose_rows (R C n : Nat) (M out : List Byte) (j : Nat) (hn : n * C ≤ 8 * out.length) :
    getbit ((List.range n).foldl (fun out r => transposeRow R C M out r) out) j
      = if j < n * C then getbit M (j % C * R + j / C) else getbit out j := by
  induction n with
  | zero => simp
  | succ n ih =>
    have hmul : (n + 1) * C = n * C + C := by ring
    have hl : ∀ (L : List Nat) (out : List Byte),
        (L.foldl (fun out r => transposeRow R C M out r) out).length = out.length := by
      intro L
      induction L with
      | nil => intro out; rfl
      | cons x L ih => intro out; rw [List.foldl_cons, ih, length_transposeRow]
    rw [List.range_succ, List.foldl_append, List.foldl_cons, List.foldl_nil,
      getbit_transposeRow _ _ _ _ _ _ (by rw [hl]; omega), ih (by omega)]
    by_cases h1 : n * C ≤ j ∧ j < n * C + C
    · have hC : 0 < C := by omega
      have hd : j / C = n := by
        rw [Nat.div_eq_iff hC]
        constructor <;> omega
      have hm : j % C = j - n * C := by
        have := Nat.div_add_mod j C
        rw [hd, mul_comm] at this; omega
      rw [if_pos h1, if_pos (by omega), hd, hm]
    · rw [if_neg h1]
      by_cases h2 : j < n * C
      · rw [if_pos h2, if_pos (by omega)]
      · rw [if_neg h2, if_neg (by omega)]

/-- Element (r, c) of the output, in row-major layout, is element (r, c) of the input, in column-major layout
(43_bitmatrix.md R107, R108, R111). -/
theorem getbit_transposeBytes (R C r c : Nat) (M : List Byte) (h8 : R * C % 8 = 0) (hr : r < R) (hc : c < C) :
    getbit (transposeBytes R C M) (r * C + c) = getbit M (c * R + r) := by
  unfold transposeBytes
  have hlt : r * C + c < R * C := by
    have : (r + 1) * C ≤ R * C := Nat.mul_le_mul_right _ hr
    rw [Nat.add_mul] at this; omega
  rw [getbit_transpose_rows _ _ _ _ _ _ (by simp; omega), if_pos hlt]
  have hd : (r * C + c) / C = r := by
    rw [mul_comm r C, Nat.mul_add_div (by omega), Nat.div_eq_of_lt hc, add_zero]
  have hm : (r * C + c) % C = c := by
    rw [mul_comm r C, Nat.mul_add_mod, Nat.mod_eq_of_lt hc]
  rw [hd, hm]

/-- Column k of the result of MATXOR (43_bitmatrix.md R112). -/
theorem xorColumns_column (C rb k : Nat) (M V : List Byte) (hM : M.length = C * rb) (hV : V.length = rb)
    (hk : k < C) :
    ((xorColumns C rb M V).drop (k * rb)).take rb = xorBytes ((M.drop (k * rb)).take rb) V := by
  have hcol : ∀ j < C, (xorBytes ((M.drop (j * rb)).take rb) V).length = rb := by
    intro j hj
    have : (j + 1) * rb ≤ C * rb := Nat.mul_le_mul_right _ hj
    rw [Nat.add_mul] at this
    rw [length_xorBytes, List.length_take, List.length_drop, hM, hV]
    omega
  have key : ∀ n k, k < n → n ≤ C →
      (((List.range n).flatMap fun k => xorBytes ((M.drop (k * rb)).take rb) V).drop (k * rb)).take rb
        = xorBytes ((M.drop (k * rb)).take rb) V := by
    intro n
    induction n with
    | zero => intro k hk; omega
    | succ n ih =>
      intro k hk hn
      have hlen : ((List.range n).flatMap fun k => xorBytes ((M.drop (k * rb)).take rb) V).length = n * rb := by
        rw [List.length_flatMap]
        have : (List.range n).map (fun k => (xorBytes ((M.drop (k * rb)).take rb) V).length)
            = (List.range n).map fun _ => rb := by
          apply List.map_congr_left
          intro j hj
          rw [List.mem_range] at hj
          exact hcol j (by omega)
        rw [this]; simp
      rw [List.range_succ, List.flatMap_append, List.flatMap_singleton]
      rcases Nat.lt_succ_iff_lt_or_eq.1 hk with hk | rfl
      · have hkn : (k + 1) * rb ≤ n * rb := Nat.mul_le_mul_right _ hk
        rw [Nat.add_mul] at hkn
        rw [List.drop_append_of_le_length (by omega), List.take_append_of_le_length]
        · exact ih k hk (by omega)
        · rw [List.length_drop, hlen]; omega
      · rw [List.drop_left' hlen, List.take_of_length_le (by rw [hcol _ (by omega)])]
  exact key C k hk le_rfl

/-- One byte of MATXOR's result (43_bitmatrix.md R112). -/
theorem getD_xorColumns (C rb : Nat) (M V : List Byte) (hM : M.length = C * rb) (hV : V.length = rb) (c j : Nat)
    (hc : c < C) (hj : j < rb) :
    (xorColumns C rb M V).getD (c * rb + j) 0#8 = M.getD (c * rb + j) 0#8 ^^^ V.getD j 0#8 := by
  have hcol := xorColumns_column C rb c M V hM hV hc
  have hlt : (c + 1) * rb ≤ C * rb := Nat.mul_le_mul_right _ hc
  rw [Nat.add_mul] at hlt
  have e : ∀ X : List Byte, X.getD (c * rb + j) 0#8 = ((X.drop (c * rb)).take rb).getD j 0#8 := by
    intro X; simp [List.getD_eq_getElem?_getD, hj]
  rw [e, hcol, e, getD_xorBytes]
  simp [hV, hM]; omega

end Sys2Proof.Machine
end

