-- ==== Sys2Proof/Laws/Bus.lean ====
section
/-! SUPPORT. Everything a host access, the engine's step and a step of the machine can do. -/

namespace Sys2Proof.Machine

/-- Everything a write to a register can do (10_state.md R19 to R27): reset, IRQ_EN, the W1C bits, accept, OVR, an
argument, or nothing. -/
theorem writeReg_cases (s : State) (r : Reg) (v : Word) :
    writeReg s r v = State.softReset s
    ∨ (∃ b, writeReg s r v = { s with irqEn := b })
    ∨ writeReg s r v = State.statusWrite s v
    ∨ (s.inflight = none ∧ writeReg s r v = State.accept s v)
    ∨ (∃ f, s.inflight = some f ∧ writeReg s r v = { s with ovr := true })
    ∨ (∃ x, writeReg s r v = { s with args := x })
    ∨ writeReg s r v = s := by
  cases r
  case ctrl =>
    rcases State.ctrlWrite_cases s v with ⟨-, h⟩ | ⟨-, h⟩
    · exact .inl h
    · exact .inr (.inl ⟨_, h⟩)
  case status => exact .inr (.inr (.inl rfl))
  case cmd =>
    rcases State.cmdWrite_cases s v with ⟨f, hf, h⟩ | ⟨hf, h⟩
    · exact .inr (.inr (.inr (.inr (.inl ⟨f, hf, h⟩))))
    · exact .inr (.inr (.inr (.inl ⟨hf, h⟩)))
  case arg0 => exact .inr (.inr (.inr (.inr (.inr (.inl ⟨_, rfl⟩)))))
  case arg1 => exact .inr (.inr (.inr (.inr (.inr (.inl ⟨_, rfl⟩)))))
  case arg2 => exact .inr (.inr (.inr (.inr (.inr (.inl ⟨_, rfl⟩)))))
  case arg3 => exact .inr (.inr (.inr (.inr (.inr (.inl ⟨_, rfl⟩)))))
  case arg4 => exact .inr (.inr (.inr (.inr (.inr (.inl ⟨_, rfl⟩)))))
  case arg5 => exact .inr (.inr (.inr (.inr (.inr (.inl ⟨_, rfl⟩)))))
  all_goals exact .inr (.inr (.inr (.inr (.inr (.inr rfl)))))

/-- A buffer access that has a meaning is 1, 2 or 4 bytes, aligned, in the buffer (20_memory.md R46). -/
theorem bufferShape_iff (size off width : Nat) :
    bufferShape size off width = true ↔
      (width = 1 ∨ width = 2 ∨ width = 4) ∧ off % width = 0 ∧ off + width ≤ size := by
  simp [bufferShape, or_assoc, and_assoc]

/-- What a buffer route says of the access. -/
theorem route_buffer (c : Params) (addr width off : Nat) (h : route c addr width = .buffer off) :
    addr = c.bufBase + off := by
  unfold route at h
  split at h
  · split at h <;> simp at h
  · split at h
    · split at h
      · simp only [Route.buffer.injEq] at h; omega
      · simp at h
    · simp at h

/-- An access to the buffer window faults exactly when it breaks R46 or BUSY = 1 (20_memory.md R48). -/
theorem bufferFault_none_iff (c : Params) (off width : Nat) (s : State) :
    bufferFault c off width s = none ↔ bufferShape c.bufSize off width = true ∧ s.inflight = none := by
  unfold bufferFault State.busy
  cases bufferShape c.bufSize off width <;> cases s.inflight <;> simp

/-- Everything a read of the buffer window can do: a fault that `bufferFault` names, or a reply of its bytes while IDLE. -/
theorem bufferRead_cases (c : Params) (off width : Nat) (s : State) :
    (¬ (bufferShape c.bufSize off width = true ∧ s.inflight = none) ∧ ∃ r, bufferRead c off width s = .fault r)
    ∨ (bufferShape c.bufSize off width = true ∧ s.inflight = none
      ∧ bufferRead c off width s = .next { s with reply := some (laneWord (Memory.readBytes s.buf off width)) }) := by
  have h := bufferFault_none_iff c off width s
  unfold bufferRead
  rcases hf : bufferFault c off width s with _ | r
  · exact .inr ⟨(h.1 hf).1, (h.1 hf).2, rfl⟩
  · exact .inl ⟨fun hc => by simp [h.2 hc] at hf, r, rfl⟩

/-- Everything a write of the buffer window can do: a fault that `bufferFault` names, or a store of its lanes while
IDLE. -/
theorem bufferWrite_cases (c : Params) (off width : Nat) (v : Word) (s : State) :
    (¬ (bufferShape c.bufSize off width = true ∧ s.inflight = none) ∧ ∃ r, bufferWrite c off width v s = .fault r)
    ∨ (bufferShape c.bufSize off width = true ∧ s.inflight = none
      ∧ bufferWrite c off width v s = .next { s with buf := Memory.writeBytes s.buf off (laneBytes width v) }) := by
  have h := bufferFault_none_iff c off width s
  unfold bufferWrite
  rcases hf : bufferFault c off width s with _ | r
  · exact .inr ⟨(h.1 hf).1, (h.1 hf).2, rfl⟩
  · exact .inl ⟨fun hc => by simp [h.2 hc] at hf, r, rfl⟩

/-- What a register route says of the access (20_memory.md R47). -/
theorem route_register (c : Params) (addr width off : Nat) (h : route c addr width = .register off) :
    addr = c.regBase + off ∧ width = 4 ∧ off % 4 = 0 ∧ off < 256 := by
  unfold route at h
  split at h
  · rename_i ht
    split at h
    · rename_i hb
      simp only [registerShape, Bool.and_eq_true, decide_eq_true_eq, beq_iff_eq] at hb
      simp only [Route.register.injEq] at h
      simp only [touches, Config.regWindow, Bool.and_eq_true, decide_eq_true_eq] at ht
      obtain ⟨ht1, -⟩ := ht
      obtain ⟨hb1, hb2, hb3⟩ := hb
      subst h
      exact ⟨by omega, hb2, hb3, by omega⟩
    · simp at h
  · split at h
    · split at h <;> simp at h
    · simp at h

/-- An aligned 32-bit access in the register window reaches the register at its offset (20_memory.md R45, R47). -/
theorem route_of_register (c : Params) (off : Nat) (h4 : off % 4 = 0) (hlt : off < 256) :
    route c (c.regBase + off) 4 = .register off := by
  have ht : touches (c.regBase + off) 4 c.regBase Config.regWindow = true := by
    simp [touches, Config.regWindow]; omega
  have hs : (decide (c.regBase ≤ c.regBase + off) && registerShape (c.regBase + off - c.regBase) 4) = true := by
    simp [registerShape, h4]
  simp only [route, ht, hs, if_true]
  congr 1; omega

/-- An access that begins in the buffer window and does not reach the register window is one to the buffer window
(20_memory.md R45). -/
theorem route_of_buffer (c : Params) (off width : Nat) (hlt : off < c.bufSize)
    (ht : touches (c.bufBase + off) width c.regBase Config.regWindow = false) :
    route c (c.bufBase + off) width = .buffer off := by
  have ht' : touches (c.bufBase + off) width c.bufBase c.bufSize = true := by
    simp only [touches, Bool.and_eq_true, decide_eq_true_eq]; omega
  have he : c.bufBase + off - c.bufBase = off := by omega
  simp [route, ht, ht', he]

/-- An access of a shape the buffer window takes does not reach the register window (20_memory.md R58). -/
theorem touches_reg_of_bufferShape (c : Params) (off width : Nat) (hs : bufferShape c.bufSize off width = true) :
    off < c.bufSize ∧ touches (c.bufBase + off) width c.regBase Config.regWindow = false := by
  obtain ⟨hs1, -, hs3⟩ := (bufferShape_iff _ _ _).1 hs
  have hd := Params.windows_disjoint c
  have hw : 1 ≤ width := by rcases hs1 with h | h | h <;> omega
  refine ⟨by omega, ?_⟩
  simp only [touches, Config.regWindow, Bool.and_eq_false_iff, decide_eq_false_iff_not]; omega

/-- Everything a host access can do when it has a meaning: a reply, a register write, a buffer write while IDLE, or
nothing (20_memory.md R56). -/
theorem hostAccess_next (c : Params) (op : HostOp) (s t : State) (h : hostAccess c op s = .next t) :
    (∃ w, t = { s with reply := some w })
    ∨ (∃ r v, t = writeReg s r v)
    ∨ (s.inflight = none ∧ ∃ a bs, a + bs.length ≤ c.bufSize ∧ t = { s with buf := Memory.writeBytes s.buf a bs })
    ∨ t = s := by
  have hread : ∀ off width, bufferRead c off width s = .next t → ∃ w, t = { s with reply := some w } := by
    intro off width h
    rcases bufferRead_cases c off width s with ⟨-, r, e⟩ | ⟨-, -, e⟩ <;> rw [e] at h
    · cases h
    · cases h; exact ⟨_, rfl⟩
  have hwrite : ∀ off width v, bufferWrite c off width v s = .next t → s.inflight = none
      ∧ ∃ a bs, a + bs.length ≤ c.bufSize ∧ t = { s with buf := Memory.writeBytes s.buf a bs } := by
    intro off width v h
    rcases bufferWrite_cases c off width v s with ⟨-, r, e⟩ | ⟨hs, hf, e⟩ <;> rw [e] at h
    · cases h
    · cases h
      exact ⟨hf, off, laneBytes width v, by rw [length_laneBytes]; exact ((bufferShape_iff _ _ _).1 hs).2.2, rfl⟩
  cases op with
  | read addr width =>
    simp only [hostAccess, hostRead] at h
    split at h
    · cases h; exact .inl ⟨_, rfl⟩
    · exact .inl (hread _ _ h)
    · cases h; exact .inr (.inr (.inr rfl))
    · cases h
    · cases h
  | write addr width v =>
    simp only [hostAccess, hostWrite] at h
    split at h
    · cases h; exact .inr (.inl ⟨_, _, rfl⟩)
    · exact .inr (.inr (.inl (hwrite _ _ _ h)))
    · cases h; exact .inr (.inr (.inr rfl))
    · cases h
    · cases h
  | readBuf off width => exact .inl (hread _ _ h)
  | writeBuf off width v => exact .inr (.inr (.inl (hwrite _ _ _ h)))

/-- Everything the engine's step can do: nothing while IDLE, an error, or a commit of what a command's pseudocode
stages (60_exceptions.md R118). -/
theorem engineStep_cases (s : State) :
    (s.inflight = none ∧ engineStep s = .next s)
    ∨ (∃ f e, s.inflight = some f ∧ engineStep s = .next (State.fail s e))
    ∨ (∃ f i st, s.inflight = some f ∧ decode f.word = .ok i ∧ bodyOf i Config.platform f = .ok st
        ∧ engineStep s = .next (State.commit s st)) := by
  unfold engineStep fetched
  rcases hf : s.inflight with _ | f
  · exact .inl ⟨rfl, rfl⟩
  · rcases hd : decode f.word with e | i
    · refine .inr (.inl ⟨f, .illegalCmd, rfl, ?_⟩)
      simp only [hd, completeIllegal, State.complete_some s _ f hf, State.finish_error]
    · simp only [hd]
      rcases exec_cases i s with ⟨h, -⟩ | ⟨f', e, h, -, he⟩ | ⟨f', st, h, hb, he⟩
      · rw [hf] at h; cases h
      · exact .inr (.inl ⟨f, e, rfl, he⟩)
      · rw [hf] at h
        cases h
        exact .inr (.inr ⟨f, i, st, rfl, hd, hb, he⟩)

/-- A step of the machine that has a next state is the engine's step, a host access with a meaning, or a power-on reset,
on the state with the event taken off. -/
theorem step_next (s t : State) (h : step s = .next t) :
    (s.pending = [] ∧ engineStep s = .next t)
    ∨ (∃ rest, s.pending = .complete :: rest ∧ engineStep { s with pending := rest } = .next t)
    ∨ (∃ op rest, s.pending = .host op :: rest ∧ hostAccess Config.platform op { s with pending := rest } = .next t)
    ∨ (∃ rest, s.pending = .powerOn :: rest ∧ t = State.softReset { s with pending := rest }) := by
  unfold step at h
  split at h
  · exact .inl ⟨by assumption, h⟩
  · exact .inr (.inl ⟨_, by assumption, h⟩)
  · exact .inr (.inr (.inl ⟨_, _, by assumption, h⟩))
  · simp only [Host.Outcome.next.injEq] at h
    exact .inr (.inr (.inr ⟨_, by assumption, h.symm⟩))

end Sys2Proof.Machine
end

