-- ==== Sys2Proof/Laws/Frame.lean ====
section
/-! SUPPORT. What a commit of each kind of staged result leaves and changes, in the terms of Safety.lean. -/

namespace Sys2Proof.Machine

/-- Every commit ends the command without error and touches no register the host alone writes. -/
theorem endedDone_commit (s : State) (st : Staged) : EndedDone s (State.commit s st) :=
  ⟨rfl, rfl, rfl, rfl, rfl, rfl, rfl, rfl, rfl, rfl, rfl⟩

/-- A failed command in the terms of Safety.lean. -/
theorem fail_eq_endedWithError (s : State) (e : ErrCode) : State.fail s e = endedWithError s (errCodeBits e) := rfl

/-- A commit of one byte string, with a RESULT. -/
theorem wroteBytes_commit (s : State) (a : Nat) (bs : List Byte) (r : Word) :
    WroteBytes s (State.commit s { writes := [(a, bs)], result := r }) r a bs.length where
  ended := endedDone_commit s _
  params := ⟨rfl, rfl, rfl⟩
  result := rfl
  bytes := fun x hx => by
    simpa using Memory.read_writeBytes_outside s.buf a bs x hx

theorem readBytes_commit (s : State) (a : Nat) (bs : List Byte) (r : Word) :
    Memory.readBytes (State.commit s { writes := [(a, bs)], result := r }).buf a bs.length = bs := by
  simpa using Memory.readBytes_writeBytes s.buf a bs

theorem wroteBytes_stageBytes (s : State) (a n : Nat) (bs : List Byte) (h : bs.length = n) :
    WroteBytes s (State.commit s (stageBytes a bs)) 0#32 a n := by
  subst h; exact wroteBytes_commit s a bs 0#32

theorem readBytes_stageBytes (s : State) (a n : Nat) (bs : List Byte) (h : bs.length = n) :
    Memory.readBytes (State.commit s (stageBytes a bs)).buf a n = bs := by
  subst h; exact readBytes_commit s a bs 0#32

/-- A commit of one big number. -/
theorem wroteBytes_stageElem (s : State) (a v : Nat) : WroteBytes s (State.commit s (stageElem a v)) 0#32 a 128 :=
  wroteBytes_stageBytes s a 128 _ (length_beBytes _ _)

theorem elemAt_stageElem (s : State) (a v : Nat) (h : v < 2 ^ 1024) :
    elemAt (State.commit s (stageElem a v)).buf a = v := by
  unfold elemAt stageElem
  rw [readBytes_stageBytes s a 128 _ (length_beBytes _ _)]
  exact beInt_beBytes 128 v (by rw [show (256 : Nat) = 2 ^ 8 by norm_num, ← pow_mul]; exact h)

/-- A commit of a RESULT alone. -/
theorem wroteResult_stageResult (s : State) (n : Nat) :
    WroteResult s (State.commit s (stageResult n)) (BitVec.ofNat 32 n) where
  ended := endedDone_commit s _
  params := ⟨rfl, rfl, rfl⟩
  result := rfl
  bytes := fun _ => rfl

theorem wroteResult_stageTest (s : State) (b : Bool) :
    WroteResult s (State.commit s (stageTest b)) (if b = true then 1#32 else 0#32) := by
  cases b <;> exact wroteResult_stageResult s _

/-- One byte of a string in the buffer. -/
theorem read_of_readBytes (m : Memory) (a n k : Nat) (bs : List Byte) (h : Memory.readBytes m a n = bs) (hk : k < n) :
    Memory.read m (a + k) = bs.getD k 0#8 := by
  subst h
  rw [List.getD_eq_getElem _ _ (by simpa using hk), Memory.getElem_readBytes]

/-- The engine's step is next. -/
theorem step_of_engineNext (s : State) (rest : List Event) (h : EngineNext s rest) :
    step s = engineStep { s with pending := rest } := by
  unfold step
  rcases h with h | ⟨h, rfl⟩
  · rw [h]
  · rw [h]
    obtain ⟨_, _, _, _, _, _, _, _, _, _, _, _, _, _, _, _⟩ := s
    simp only at h
    subst h
    rfl

/-- The host's write of a register is next (20_memory.md R47). -/
theorem step_of_hostWrites (s : State) (off : Nat) (v : Word) (rest : List Event) (h : HostWrites s off v rest)
    (h4 : off % 4 = 0) (hlt : off < 256) :
    step s = .next (writeReg { s with pending := rest } (regAt off) v) := by
  unfold step
  rw [h]
  simp only [hostAccess, hostWrite, route_of_register _ off h4 hlt]

/-- The host's read of a register is next (20_memory.md R47). -/
theorem step_of_hostReads (s : State) (off : Nat) (rest : List Event) (h : HostReads s off rest)
    (h4 : off % 4 = 0) (hlt : off < 256) :
    step s = .next { s with pending := rest, reply := some (readReg Config.platform { s with pending := rest } (regAt off)) } := by
  unfold step
  rw [h]
  simp only [hostAccess, hostRead, route_of_register _ off h4 hlt]

/-- The offset of a register that is not a reserved slot is its own (10_state.md R16). -/
theorem offset_of_regAt (off : Nat) (h4 : off % 4 = 0) (hlt : off < 256) (r : Reg) (h : regAt off = r)
    (hr : r ≠ .reserved) : off = regOffset r := by
  unfold regAt at h
  split at h <;> subst h <;> simp [regOffset] at * <;> omega

/-- Everything a step of the machine can do, in the terms of Safety.lean: a power-on reset, a register write, the
engine's step, an access that at most makes a reply, or a write of the buffer while IDLE. -/
theorem step_cases (s t : State) (h : step s = .next t) :
    (∃ rest, s.pending = .powerOn :: rest ∧ t = State.softReset { s with pending := rest })
    ∨ (∃ off v rest, off % 4 = 0 ∧ off < 256 ∧ HostWrites s off v rest
        ∧ t = writeReg { s with pending := rest } (regAt off) v)
    ∨ (∃ rest, EngineNext s rest ∧ engineStep { s with pending := rest } = .next t)
    ∨ (∃ rest x, t = { s with pending := rest, reply := x })
    ∨ (∃ rest m, s.inflight = none ∧ t = { s with pending := rest, buf := m }) := by
  rcases step_next s t h with ⟨hp, he⟩ | ⟨rest, hp, he⟩ | ⟨op, rest, hp, he⟩ | ⟨rest, hp, rfl⟩
  · refine .inr (.inr (.inl ⟨[], .inr ⟨hp, rfl⟩, ?_⟩))
    have e : { s with pending := [] } = s := by rw [← hp]
    rw [e, he]
  · exact .inr (.inr (.inl ⟨rest, .inl hp, he⟩))
  · have hread : ∀ off width, bufferRead Config.platform off width { s with pending := rest } = .next t →
        ∃ rest x, t = { s with pending := rest, reply := x } := by
      intro off width he
      rcases bufferRead_cases Config.platform off width { s with pending := rest } with ⟨-, r, e⟩ | ⟨-, -, e⟩ <;>
        rw [e] at he <;> cases he
      exact ⟨rest, _, rfl⟩
    have hwrite : ∀ off width v, bufferWrite Config.platform off width v { s with pending := rest } = .next t →
        ∃ rest m, s.inflight = none ∧ t = { s with pending := rest, buf := m } := by
      intro off width v he
      rcases bufferWrite_cases Config.platform off width v { s with pending := rest } with ⟨-, r, e⟩ | ⟨-, hf, e⟩ <;>
        rw [e] at he <;> cases he
      exact ⟨rest, _, hf, rfl⟩
    cases op with
    | read addr width =>
      simp only [hostAccess, hostRead] at he
      split at he
      · cases he; exact .inr (.inr (.inr (.inl ⟨rest, _, rfl⟩)))
      · exact .inr (.inr (.inr (.inl (hread _ _ he))))
      · cases he; exact .inr (.inr (.inr (.inl ⟨rest, s.reply, rfl⟩)))
      · cases he
      · cases he
    | write addr width v =>
      simp only [hostAccess, hostWrite] at he
      split at he
      · rename_i off hr
        cases he
        obtain ⟨rfl, rfl, h4, hl⟩ := route_register _ _ _ _ hr
        exact .inr (.inl ⟨off, v, rest, h4, hl, hp, rfl⟩)
      · exact .inr (.inr (.inr (.inr (hwrite _ _ _ he))))
      · cases he; exact .inr (.inr (.inr (.inl ⟨rest, s.reply, rfl⟩)))
      · cases he
      · cases he
    | readBuf off width => exact .inr (.inr (.inr (.inl (hread _ _ he))))
    | writeBuf off width v => exact .inr (.inr (.inr (.inr (hwrite _ _ _ he))))
  · exact .inl ⟨rest, hp, rfl⟩

end Sys2Proof.Machine
end

