-- ==== Sys2Proof/Laws/Kdf.lean ====
section
/-! SUPPORT. The hash chain of the KDF (42_kdf.md R101, R104). -/

namespace Sys2Proof.Machine

/-- A longer chain begins with the shorter one. -/
theorem hashChain_append (H : List Byte → List Byte) (n k : Nat) (blk : List Byte) :
    hashChain H (n + k) blk = hashChain H n blk ++ hashChain H k (H^[n] blk) := by
  induction n generalizing blk with
  | zero => simp [hashChain]
  | succ n ih =>
    rw [show n + 1 + k = (n + k) + 1 by omega, hashChain, hashChain, ih, Function.iterate_succ_apply,
      List.append_assoc]

/-- Chains of different lengths agree on what both have. -/
theorem take_hashChain (c : Params) (n n' L : Nat) (blk : List Byte) (h : blk.length = c.hashLen) (hn : n ≤ n')
    (hL : L ≤ n * c.hashLen) :
    (hashChain c.kdfH n' blk).take L = (hashChain c.kdfH n blk).take L := by
  obtain ⟨k, rfl⟩ := Nat.exists_eq_add_of_le hn
  rw [hashChain_append, List.take_append_of_le_length]
  rw [length_hashChain _ _ _ h]; exact hL

/-- The number of blocks covers the length (42_kdf.md R101). -/
theorem blocks_cover (c : Params) (L : Nat) : L ≤ (L + c.hashLen - 1) / c.hashLen * c.hashLen := by
  have hp := Params.hashLen_pos c
  have h1 := Nat.div_add_mod (L + c.hashLen - 1) c.hashLen
  have h2 := Nat.mod_lt (L + c.hashLen - 1) hp
  have h3 := Nat.mul_comm ((L + c.hashLen - 1) / c.hashLen) c.hashLen
  omega

theorem blocks_mono (c : Params) (L L' : Nat) (h : L ≤ L') :
    (L + c.hashLen - 1) / c.hashLen ≤ (L' + c.hashLen - 1) / c.hashLen :=
  Nat.div_le_div_right (by omega)

/-- Block i of a chain (42_kdf.md R101). -/
theorem hashChain_block (c : Params) (n i : Nat) (blk : List Byte) (h : blk.length = c.hashLen) (hi : i < n) :
    ((hashChain c.kdfH n blk).drop (i * c.hashLen)).take c.hashLen = c.kdfH^[i] blk := by
  induction n generalizing i blk with
  | zero => omega
  | succ n ih =>
    rw [hashChain]
    cases i with
    | zero => simp [List.take_append_of_le_length, ← h]
    | succ i =>
      rw [Function.iterate_succ_apply, ← ih i (c.kdfH blk) (Params.length_kdfH c blk) (by omega)]
      have : (i + 1) * c.hashLen = blk.length + i * c.hashLen := by rw [h]; ring
      rw [this, ← List.drop_drop, List.drop_left]

end Sys2Proof.Machine
end

