-- ==== Sys2Proof/Laws/PerInstr.lean ====
section
/-! SUPPORT. Facts about each command as syntax, one lemma per constructor. -/

namespace Sys2Proof.Laws.EncodedLegally

/-- The command's word is legal (30_encoding.md R63), its fields are the opcode and a zero MBZ, and the decoder reads the
command back from it (R64). -/
def Statement (i : Instr) : Prop :=
  (commandFields (Sys2Proof.encode i)).wellFormed = true ∧ commandFields (Sys2Proof.encode i) = ⟨0#24, opcodeOf i⟩
    ∧ Sys2Proof.decode (Sys2Proof.encode i) = .ok i

theorem nop : Statement .nop := ⟨by decide, by decide, by decide⟩
theorem ldp : Statement .ldp := ⟨by decide, by decide, by decide⟩
theorem ldq : Statement .ldq := ⟨by decide, by decide, by decide⟩
theorem ldg : Statement .ldg := ⟨by decide, by decide, by decide⟩
theorem stp : Statement .stp := ⟨by decide, by decide, by decide⟩
theorem stq : Statement .stq := ⟨by decide, by decide, by decide⟩
theorem stg : Statement .stg := ⟨by decide, by decide, by decide⟩
theorem clr : Statement .clr := ⟨by decide, by decide, by decide⟩
theorem modexp : Statement .modexp := ⟨by decide, by decide, by decide⟩
theorem modexpg : Statement .modexpg := ⟨by decide, by decide, by decide⟩
theorem modmul : Statement .modmul := ⟨by decide, by decide, by decide⟩
theorem modinv : Statement .modinv := ⟨by decide, by decide, by decide⟩
theorem qrtest : Statement .qrtest := ⟨by decide, by decide, by decide⟩
theorem gentest : Statement .gentest := ⟨by decide, by decide, by decide⟩
theorem paramchk : Statement .paramchk := ⟨by decide, by decide, by decide⟩
theorem encode : Statement .encode := ⟨by decide, by decide, by decide⟩
theorem decode : Statement .decode := ⟨by decide, by decide, by decide⟩
theorem kdf : Statement .kdf := ⟨by decide, by decide, by decide⟩
theorem kdfxor : Statement .kdfxor := ⟨by decide, by decide, by decide⟩
theorem pack : Statement .pack := ⟨by decide, by decide, by decide⟩
theorem transpose : Statement .transpose := ⟨by decide, by decide, by decide⟩
theorem matxor : Statement .matxor := ⟨by decide, by decide, by decide⟩

end Sys2Proof.Laws.EncodedLegally
end

