-- ==== Sys2Proof/Machine/HostProgram.lean ====
section
/-! DEFINITION. Host programs (30_encoding.md R76, R77) and the end of a host program's run (70_reset_and_hazards.md
R150). The host's position, variables and control flow are host state, outside the engine (10_state.md R33): they stand
here, beside `State`, and reach the engine through `hostAccess` alone. -/

namespace Sys2Proof.Machine

/-- The value of a host variable: a number, or the bytes an `rdbuf` read (30_encoding.md R76). -/
inductive HostValue where
  | num (n : Int)
  | str (bs : List Byte)
deriving DecidableEq, Repr

/-- A host expression over host variables and constants. R76 gives examples and no list of operators: these are the
model's choice (DESIGN CHOICE, log 12). -/
inductive HostExpr where
  | const (n : Int)
  /-- A hex byte string. -/
  | hex (bs : List Byte)
  | var (x : String)
  | add (l r : HostExpr)
  | sub (l r : HostExpr)
  | mul (l r : HostExpr)
  /-- Floor division. -/
  | div (l r : HostExpr)
  | mod (l r : HostExpr)
  /-- `x[k]` of a number: its bit k. -/
  | bit (e : HostExpr) (k : Nat)
  /-- `be_bytes(n, v)` (00_scope.md R11). -/
  | beBytes (n : Nat) (v : HostExpr)
  /-- `be_int(s)` (00_scope.md R11). -/
  | beInt (e : HostExpr)
  /-- `len(s)` (00_scope.md R11). -/
  | len (e : HostExpr)
  /-- `s[i]` of a byte string: its byte i (00_scope.md R11). -/
  | byte (e i : HostExpr)
  /-- Concatenation (00_scope.md R11). -/
  | cat (l r : HostExpr)
deriving DecidableEq, Repr

/-- A condition of host control flow. R76 writes `if x ...` and gives no list of comparisons: these are the model's choice
(DESIGN CHOICE, log 12); `always` is a bare `goto`. -/
inductive HostCond where
  | always
  | eq (l r : HostExpr)
  | lt (l r : HostExpr)
  | not (c : HostCond)
deriving DecidableEq, Repr

/-- One line of a host program (30_encoding.md R76). -/
inductive HostLine where
  /-- `wr32 REG, v` -/
  | wr32 (r : Reg) (v : HostExpr)
  /-- `rd32 REG -> x` -/
  | rd32 (r : Reg) (x : String)
  /-- `wrbuf off, bytes`: hex bytes, `<be_bytes(128, v)>`, or any other expression for a byte string. -/
  | wrbuf (off bytes : HostExpr)
  /-- `rdbuf off, n -> x` -/
  | rdbuf (off n : HostExpr) (x : String)
  /-- `x := expr`: host computation, no host step. -/
  | assign (x : String) (e : HostExpr)
  /-- `x := next draw`: a value the host draws, a free input (41_modarith.md R98, R100). -/
  | draw (x : String)
  /-- `l:` -/
  | label (l : String)
  /-- `if c goto l` -/
  | ifGoto (c : HostCond) (l : String)
deriving DecidableEq, Repr

/-- Where a read's value goes. -/
inductive HostBind where
  /-- Nowhere: the access is a write. -/
  | none
  /-- Into a host variable. -/
  | num (x : String)
  /-- To the end of a byte string. -/
  | byte (x : String)
deriving DecidableEq, Repr

/-- The host's own state while it runs a program. -/
structure HostState where
  /-- The line to run next. -/
  line : Nat
  /-- The accesses of the line begun that are still to happen. -/
  queue : List (HostOp × HostBind)
  /-- Host variables, the latest value first. -/
  vars : List (String × HostValue)
  /-- The host's draws still to come, free inputs (41_modarith.md R100). -/
  draws : List Int
deriving DecidableEq, Repr

/-- The host at the first line of a program, with no variable set and these draws to come. -/
def HostState.start (draws : List Int) : HostState := ⟨0, [], [], draws⟩

/-- A host value as a number. -/
def HostValue.asNum : HostValue → Option Int
  | .num n => some n
  | .str _ => none

/-- A host value as a byte string. -/
def HostValue.asBytes : HostValue → Option (List Byte)
  | .num _ => none
  | .str bs => some bs

/-- A number that an operation takes as one below `bound`. R76 gives no meaning to a value out of the range that its
operation takes, so the expression has none (DESIGN CHOICE, log 12). -/
def natBelow (bound : Nat) (n : Int) : Option Nat :=
  if 0 ≤ n ∧ n < bound then some n.toNat else none

/-- A number that an operation takes as an offset, a length or an index: any that is not negative (log 12). -/
def asCount (n : Int) : Option Nat := if 0 ≤ n then some n.toNat else none

/-- A function of two numbers, as a function of two host values. -/
def numOp (g : Int → Int → Option Int) (l r : Option HostValue) : Option HostValue := do
  return .num (← g (← (← l).asNum) (← (← r).asNum))

/-- The value of a host expression; none where it has no meaning: a variable that has no value, a value of the wrong
kind, a division by zero, a byte that is not there, or `be_bytes(n, v)` for v outside [0, 256^n), which 00_scope.md R11
does not define (DESIGN CHOICE, log 12). -/
def HostExpr.eval (vars : List (String × HostValue)) : HostExpr → Option HostValue
  | .const n => some (.num n)
  | .hex bs => some (.str bs)
  | .var x => vars.lookup x
  | .add l r => numOp (fun a b => some (a + b)) (l.eval vars) (r.eval vars)
  | .sub l r => numOp (fun a b => some (a - b)) (l.eval vars) (r.eval vars)
  | .mul l r => numOp (fun a b => some (a * b)) (l.eval vars) (r.eval vars)
  | .div l r => numOp (fun a b => if b = 0 then none else some (a.fdiv b)) (l.eval vars) (r.eval vars)
  | .mod l r => numOp (fun a b => if b = 0 then none else some (a.fmod b)) (l.eval vars) (r.eval vars)
  | .bit e k => do return .num ((← (← e.eval vars).asNum) / 2 ^ k % 2)
  | .beBytes n v => do return .str (Machine.beBytes n (← natBelow (256 ^ n) (← (← v.eval vars).asNum)))
  | .beInt e => do return .num (Machine.beInt (← (← e.eval vars).asBytes))
  | .len e => do return .num (← (← e.eval vars).asBytes).length
  | .byte e i => do
    let bs ← (← e.eval vars).asBytes
    let k ← asCount (← (← i.eval vars).asNum)
    return .num (← bs[k]?).toNat
  | .cat l r => do return .str ((← (← l.eval vars).asBytes) ++ (← (← r.eval vars).asBytes))

/-- The number an expression gives. -/
def HostExpr.num (vars : List (String × HostValue)) (e : HostExpr) : Option Int := do (← e.eval vars).asNum

/-- The truth of a host condition; = compares two values of one kind, < two numbers. -/
def HostCond.eval (vars : List (String × HostValue)) : HostCond → Option Bool
  | .always => some true
  | .eq l r => do
    match ← l.eval vars, ← r.eval vars with
    | .num a, .num b => some (a == b)
    | .str a, .str b => some (a == b)
    | _, _ => none
  | .lt l r => do return decide ((← l.num vars) < (← r.num vars))
  | .not c => do return !(← c.eval vars)

/-! ### Pseudo-operations (30_encoding.md R77) -/

/-- `issue MNEM k0=v0, ...`: the argument writes in the order written, then the CMD write. A role the command does not
have is dropped. -/
def issue (i : Instr) (os : List (Role × HostExpr)) : List HostLine :=
  os.filterMap (fun o => ((argRoles i).lookup o.1).map fun a => .wr32 (argReg a) o.2)
    ++ [.wr32 .cmd (.const (encode i).toNat)]

/-- `wait`, whose loop is labelled l. -/
def waitIdle (l : String) : List HostLine :=
  [.label l, .rd32 .status "s", .ifGoto (.eq (.bit (.var "s") 0) (.const 1)) l]

/-- `check`: go to the label `error` if ERR is set, else clear DONE. -/
def check : List HostLine :=
  [.rd32 .status "s", .ifGoto (.eq (.bit (.var "s") 2) (.const 1)) "error", .wr32 .status (.const 0x2)]

/-- `run MNEM ...`, whose waiting loop is labelled l: `issue`, `wait`, `check`, as 30_encoding.md R77 expands it. So DONE is
clear after it, while 40_control.md R79's example and V-CT-1 end `run NOP` with STATUS = 0x2, the value before `check`'s
write; the spec does not settle which holds, and the model follows R77 (DESIGN CHOICE, log 17). -/
def runCmd (l : String) (i : Instr) (os : List (Role × HostExpr)) : List HostLine :=
  issue i os ++ waitIdle l ++ check

/-- `clearerr`. -/
def clearerr : List HostLine := [.wr32 .status (.const 0x4)]

/-! ### Running -/

/-- The accesses of `wrbuf`: single bytes to the buffer window from offset off on, in increasing offset order, each a host
step (30_encoding.md R76). One beyond the buffer's end is a host fault (20_memory.md R48). -/
def byteWrites (off : Nat) (bs : List Byte) : List (HostOp × HostBind) :=
  bs.zipIdx.map fun b => (.writeBuf (off + b.2) 1 (b.1.setWidth 32), .none)

/-- The accesses of `rdbuf`: single bytes of the buffer window from offset off on (30_encoding.md R76). -/
def byteReads (off n : Nat) (x : String) : List (HostOp × HostBind) :=
  (List.range n).map fun k => (.readBuf (off + k) 1, .byte x)

/-- The line of label l; none where the program has no such label. -/
def findLabel (prog : List HostLine) (l : String) : Option Nat := prog.findIdx? (· == .label l)

/-- The host has no operation left at this line: it is the label `end`, where the programs of 95_test_vectors.md section 7
end, or there is no such line. 70_reset_and_hazards.md R150 says only "its last operation" (DESIGN CHOICE, log 18). -/
def atEnd (prog : List HostLine) (line : Nat) : Bool :=
  match prog[line]? with
  | none => true
  | some l => l == .label "end"

/-- What beginning a line does to the host: the accesses it queues, or the host computation it makes. None where the line
has no meaning: an expression that has none, a value out of the range its operation takes (the value of `wr32` has 32
bits, an offset and a length are not negative), a label that is not there, no draw left (DESIGN CHOICE, log 12). -/
def beginLine (c : Params) (prog : List HostLine) (h : HostState) : HostLine → Option HostState
  | .wr32 r v => do
    let n ← natBelow (2 ^ 32) (← v.num h.vars)
    return { h with
      line := h.line + 1
      queue := [(.write (c.regBase + regOffset r) 4 (BitVec.ofNat 32 n), .none)] }
  | .rd32 r x =>
    some { h with line := h.line + 1, queue := [(.read (c.regBase + regOffset r) 4, .num x)] }
  | .wrbuf off bytes => do
    let o ← asCount (← off.num h.vars)
    let bs ← (← bytes.eval h.vars).asBytes
    return { h with line := h.line + 1, queue := byteWrites o bs }
  | .rdbuf off n x => do
    let o ← asCount (← off.num h.vars)
    let k ← asCount (← n.num h.vars)
    return { h with line := h.line + 1, queue := byteReads o k x, vars := (x, .str []) :: h.vars }
  | .assign x e => do
    let v ← e.eval h.vars
    return { h with line := h.line + 1, vars := (x, v) :: h.vars }
  | .draw x =>
    match h.draws with
    | [] => none
    | v :: vs => some { h with line := h.line + 1, vars := (x, .num v) :: h.vars, draws := vs }
  | .label _ => some { h with line := h.line + 1 }
  | .ifGoto cond l => do
    if ← cond.eval h.vars then
      let n ← findLabel prog l
      return { h with line := n }
    else return { h with line := h.line + 1 }

/-- The bytes a variable holds; none yet where it holds no byte string. -/
def bytesOf (vars : List (String × HostValue)) (x : String) : List Byte :=
  ((vars.lookup x).bind HostValue.asBytes).getD []

/-- The host takes the value of the read just made. A host program's reads all reach a register or a byte of the buffer,
or fault, so the reply is that read's own. -/
def bindReply (h : HostState) (b : HostBind) (reply : Option Word) : HostState :=
  match b, reply with
  | .num x, some v => { h with vars := (x, .num v.toNat) :: h.vars }
  | .byte x, some v => { h with vars := (x, .str (bytesOf h.vars x ++ [v.setWidth 8])) :: h.vars }
  | _, _ => h

/-- The system of a host program and the engine (10_state.md R15). -/
structure HostRun where
  host : HostState
  engine : State
deriving DecidableEq, Repr

/-- What a turn of the host comes to. -/
inductive HostTurn where
  | running (r : HostRun)
  /-- The host has performed its last operation (70_reset_and_hazards.md R150; log 18). -/
  | ended
  /-- A host fault: the run has no final state (60_exceptions.md R127). -/
  | hostFault (f : Fault)
  /-- The line has no meaning in 30_encoding.md R76 (log 12). -/
  | badProgram
deriving DecidableEq, Repr

/-- The host's turn: the next access of the line begun, or else the beginning of the next line. -/
def hostTurn (c : Params) (prog : List HostLine) (r : HostRun) : HostTurn :=
  match r.host.queue with
  | (op, b) :: rest =>
    match hostAccess c op r.engine with
    | .next s => .running ⟨bindReply { r.host with queue := rest } b s.reply, s⟩
    | .fault f => .hostFault f
    | .refused _ => .badProgram
  | [] =>
    match atEnd prog r.host.line, prog[r.host.line]? with
    | true, _ | _, none => .ended
    | false, some l =>
      match beginLine c prog r.host l with
      | some h => .running ⟨h, r.engine⟩
      | none => .badProgram

/-- The engine's turn (60_exceptions.md R118). -/
def engineTurn (r : HostRun) : HostRun :=
  match engineStep r.engine with
  | .next s => ⟨r.host, s⟩
  | _ => r

/-- A run has ended: the host has performed its last operation (`atEnd`, log 18) and the engine is IDLE
(70_reset_and_hazards.md R150). -/
def HostRun.final (prog : List HostLine) (r : HostRun) : Bool :=
  r.host.queue.isEmpty && atEnd prog r.host.line && !State.busy r.engine

end Sys2Proof.Machine
end

