-- ==== Sys2Proof/Machine/Listing.lean ====
section
/-! DEFINITION. Listings and the disassembler (30_encoding.md R78). -/

namespace Sys2Proof.Machine

/-- The mnemonic of a command (30_encoding.md R70, R78). -/
def mnemonic : Instr → String
  | .nop => "NOP"
  | .ldp => "LDP"
  | .ldq => "LDQ"
  | .ldg => "LDG"
  | .stp => "STP"
  | .stq => "STQ"
  | .stg => "STG"
  | .clr => "CLR"
  | .modexp => "MODEXP"
  | .modexpg => "MODEXPG"
  | .modmul => "MODMUL"
  | .modinv => "MODINV"
  | .qrtest => "QRTEST"
  | .gentest => "GENTEST"
  | .paramchk => "PARAMCHK"
  | .encode => "ENCODE"
  | .decode => "DECODE"
  | .kdf => "KDF"
  | .kdfxor => "KDFXOR"
  | .pack => "PACK"
  | .transpose => "TRANSPOSE"
  | .matxor => "MATXOR"

/-- A role's name in a listing (30_encoding.md R66, R77). -/
def roleName : Role → String
  | .dst => "dst"
  | .src => "src"
  | .base => "base"
  | .exp => "exp"
  | .a => "a"
  | .b => "b"
  | .msg => "msg"
  | .elem => "elem"
  | .seed => "seed"
  | .data => "data"
  | .mat => "mat"
  | .vec => "vec"
  | .len => "len"
  | .seedlen => "seedlen"
  | .rows => "rows"
  | .cols => "cols"
  | .stride => "stride"
  | .ds => "ds"

/-- The hexadecimal digit of a number below 16. R78 does not give the case of a listing's digits: upper, as its own
`0xHHHHHHHH` and the offsets of 95_test_vectors.md (DESIGN CHOICE, log 11). -/
def hexDigit (d : Nat) : Char := if d < 10 then Char.ofNat (48 + d) else Char.ofNat (55 + d)

/-- The n low hexadecimal digits of v. -/
def hexDigits (n v : Nat) : List Char :=
  (List.range n).map fun i => hexDigit (v / 16 ^ (n - 1 - i) % 16)

/-- An offset in a listing: hexadecimal, at least three digits, as the listings of 95_test_vectors.md have it (DESIGN
CHOICE, log 11). -/
def hexOffset (v : Word) : String :=
  "0x" ++ String.ofList (hexDigits (max 3 (Nat.log2 v.toNat / 4 + 1)) v.toNat)

/-- One operand of a listing: `role=value`, an offset in hexadecimal (30_encoding.md R78), any other value in decimal,
of which R78 does not speak (DESIGN CHOICE, log 11). -/
def showOperand (x : Args) (o : Role × ArgName) : String :=
  roleName o.1 ++ "=" ++
    (if Role.isOffset o.1 then hexOffset (argValue x o.2) else toString (argValue x o.2).toNat)

/-- A command in a listing: `MNEM role=value, ...` (30_encoding.md R78). -/
def showCommand (i : Instr) (x : Args) : String :=
  match argRoles i with
  | [] => mnemonic i
  | os => mnemonic i ++ " " ++ String.intercalate ", " (os.map (showOperand x))

/-- The disassembler: a word in no row of the opcode table prints as `.word 0xHHHHHHHH ; ILLEGAL` (30_encoding.md
R78). -/
def disassemble (w : Word) (x : Args) : String :=
  match decode w with
  | .ok i => showCommand i x
  | .error _ => ".word 0x" ++ String.ofList (hexDigits 8 w.toNat) ++ " ; ILLEGAL"

end Sys2Proof.Machine
end

