-- ==== Sys2Proof/Tests/Reference.lean ====
section
/-! SUPPORT. The reference instantiation of the OPEN parameters that the test vectors of 95_test_vectors.md §0 use:
BUF_SIZE = 65536, KDF_H = SHA-256, HASH_LEN = 32 (42_kdf.md R105). The model itself knows nothing of it. -/

namespace Sys2Proof.Tests

/-- SHA-256's round constants. -/
def shaK : List Word :=
  [0x428a2f98#32, 0x71374491#32, 0xb5c0fbcf#32, 0xe9b5dba5#32, 0x3956c25b#32, 0x59f111f1#32, 0x923f82a4#32, 0xab1c5ed5#32,
   0xd807aa98#32, 0x12835b01#32, 0x243185be#32, 0x550c7dc3#32, 0x72be5d74#32, 0x80deb1fe#32, 0x9bdc06a7#32, 0xc19bf174#32,
   0xe49b69c1#32, 0xefbe4786#32, 0x0fc19dc6#32, 0x240ca1cc#32, 0x2de92c6f#32, 0x4a7484aa#32, 0x5cb0a9dc#32, 0x76f988da#32,
   0x983e5152#32, 0xa831c66d#32, 0xb00327c8#32, 0xbf597fc7#32, 0xc6e00bf3#32, 0xd5a79147#32, 0x06ca6351#32, 0x14292967#32,
   0x27b70a85#32, 0x2e1b2138#32, 0x4d2c6dfc#32, 0x53380d13#32, 0x650a7354#32, 0x766a0abb#32, 0x81c2c92e#32, 0x92722c85#32,
   0xa2bfe8a1#32, 0xa81a664b#32, 0xc24b8b70#32, 0xc76c51a3#32, 0xd192e819#32, 0xd6990624#32, 0xf40e3585#32, 0x106aa070#32,
   0x19a4c116#32, 0x1e376c08#32, 0x2748774c#32, 0x34b0bcb5#32, 0x391c0cb3#32, 0x4ed8aa4a#32, 0x5b9cca4f#32, 0x682e6ff3#32,
   0x748f82ee#32, 0x78a5636f#32, 0x84c87814#32, 0x8cc70208#32, 0x90befffa#32, 0xa4506ceb#32, 0xbef9a3f7#32, 0xc67178f2#32]

/-- SHA-256's initial hash value. -/
def shaInit : List Word :=
  [0x6a09e667#32, 0xbb67ae85#32, 0x3c6ef372#32, 0xa54ff53a#32, 0x510e527f#32, 0x9b05688c#32, 0x1f83d9ab#32, 0x5be0cd19#32]

/-- The message schedule: each further word from the last sixteen, newest first. -/
def shaSchedule : Nat → List Word → List Word
  | 0, w => w.reverse
  | n + 1, w =>
    let x := w.getD 14 0#32
    let y := w.getD 1 0#32
    let s0 := x.rotateRight 7 ^^^ x.rotateRight 18 ^^^ x >>> 3
    let s1 := y.rotateRight 17 ^^^ y.rotateRight 19 ^^^ y >>> 10
    shaSchedule n ((w.getD 15 0#32 + s0 + w.getD 6 0#32 + s1) :: w)

/-- One round of the compression function. -/
def shaRound (v : List Word) (kw : Word × Word) : List Word :=
  match v with
  | [a, b, c, d, e, f, g, h] =>
    let t1 := h + (e.rotateRight 6 ^^^ e.rotateRight 11 ^^^ e.rotateRight 25) + ((e &&& f) ^^^ (~~~e &&& g)) + kw.1 + kw.2
    let t2 := (a.rotateRight 2 ^^^ a.rotateRight 13 ^^^ a.rotateRight 22) + ((a &&& b) ^^^ (a &&& c) ^^^ (b &&& c))
    [t1 + t2, a, b, c, d + t1, e, f, g]
  | _ => v

/-- The n big-endian words of a block. -/
def shaWords (n : Nat) (s : List Byte) : List Word :=
  (List.range n).map fun i =>
    s.getD (4 * i) 0#8 ++ s.getD (4 * i + 1) 0#8 ++ s.getD (4 * i + 2) 0#8 ++ s.getD (4 * i + 3) 0#8

/-- The compression function on one 64-byte block. -/
def shaBlock (h : List Word) (s : List Byte) : List Word :=
  List.zipWith (· + ·) h
    (((shaK.zip (shaSchedule 48 (shaWords 16 s).reverse))).foldl shaRound h)

/-- The padded message. -/
def shaPad (s : List Byte) : List Byte :=
  s ++ 0x80#8 :: List.replicate ((119 - s.length % 64) % 64) 0#8
    ++ (List.range 8).map fun i => BitVec.ofNat 8 (8 * s.length / 256 ^ (7 - i))

/-- SHA-256. -/
def sha256 (s : List Byte) : List Byte :=
  let m := shaPad s
  ((List.range (m.length / 64)).foldl (fun h i => shaBlock h ((m.drop (64 * i)).take 64)) shaInit).flatMap fun w =>
    [w.extractLsb' 24 8, w.extractLsb' 16 8, w.extractLsb' 8 8, w.extractLsb' 0 8]

/-- The parameters of 95_test_vectors.md §0, with the buffer window above the register window. -/
def reference : Params where
  layout := .bufferAbove 16 0
  bufQuads := 16128
  hashLenPred := 31
  hashRaw := sha256
  irqNumber := 0
  irqPriority := 0
  porReady := 0

end Sys2Proof.Tests
end

