-- ==== Sys2Proof/Tests/Slice0.lean ====
section
/-! SUPPORT. Tests. The expected results are those of 95_test_vectors.md, whose vector each test names, or are written
out by hand from the rule named. -/

namespace Sys2Proof.Tests

open Sys2Proof.Machine

set_option maxRecDepth 100000
set_option exponentiation.threshold 2000

/-! ### Well-formedness: each check refuses a term that breaks it -/

theorem test_mbz_not_zero_refused : CommandWord.wellFormed ⟨1#24, 0x00#8⟩ = false := by decide
theorem test_reserved_opcode_refused : CommandWord.wellFormed ⟨0#24, 0x04#8⟩ = false := by decide
theorem test_last_reserved_opcode_refused : CommandWord.wellFormed ⟨0#24, 0xFF#8⟩ = false := by decide
theorem test_assigned_opcode_taken : CommandWord.wellFormed ⟨0#24, 0x32#8⟩ = true := by decide
theorem test_register_width_refused : registerShape 0x0C 2 = false := by decide
theorem test_register_alignment_refused : registerShape 0x0E 4 = false := by decide
theorem test_buffer_width_refused : bufferShape 1024 0 3 = false := by decide
theorem test_buffer_alignment_refused : bufferShape 1024 2 4 = false := by decide
theorem test_buffer_end_refused : bufferShape 1024 1024 1 = false := by decide
theorem test_buffer_last_byte_taken : bufferShape 1024 1023 1 = true := by decide

/-! ### Decoding: MBZ then OPCODE, bit by bit from 30_encoding.md R63 and R70 -/

theorem test_decode_nop : decode 0b00000000_00000000_00000000_00000000#32 = .ok .nop := by decide
theorem test_decode_ldp : decode 0b00000000_00000000_00000000_00000001#32 = .ok .ldp := by decide
theorem test_decode_ldq : decode 0b00000000_00000000_00000000_00000010#32 = .ok .ldq := by decide
theorem test_decode_ldg : decode 0b00000000_00000000_00000000_00000011#32 = .ok .ldg := by decide
theorem test_decode_stp : decode 0b00000000_00000000_00000000_00000101#32 = .ok .stp := by decide
theorem test_decode_stq : decode 0b00000000_00000000_00000000_00000110#32 = .ok .stq := by decide
theorem test_decode_stg : decode 0b00000000_00000000_00000000_00000111#32 = .ok .stg := by decide
theorem test_decode_clr : decode 0b00000000_00000000_00000000_00001000#32 = .ok .clr := by decide
theorem test_decode_modexp : decode 0b00000000_00000000_00000000_00010000#32 = .ok .modexp := by decide
theorem test_decode_modexpg : decode 0b00000000_00000000_00000000_00010001#32 = .ok .modexpg := by decide
theorem test_decode_modmul : decode 0b00000000_00000000_00000000_00010010#32 = .ok .modmul := by decide
theorem test_decode_modinv : decode 0b00000000_00000000_00000000_00010011#32 = .ok .modinv := by decide
theorem test_decode_qrtest : decode 0b00000000_00000000_00000000_00010100#32 = .ok .qrtest := by decide
theorem test_decode_gentest : decode 0b00000000_00000000_00000000_00010101#32 = .ok .gentest := by decide
theorem test_decode_paramchk : decode 0b00000000_00000000_00000000_00010110#32 = .ok .paramchk := by decide
theorem test_decode_encode : decode 0b00000000_00000000_00000000_00011000#32 = .ok .encode := by decide
theorem test_decode_decode : decode 0b00000000_00000000_00000000_00011001#32 = .ok .decode := by decide
theorem test_decode_kdf : decode 0b00000000_00000000_00000000_00100000#32 = .ok .kdf := by decide
theorem test_decode_kdfxor : decode 0b00000000_00000000_00000000_00100001#32 = .ok .kdfxor := by decide
theorem test_decode_pack : decode 0b00000000_00000000_00000000_00110000#32 = .ok .pack := by decide
theorem test_decode_transpose : decode 0b00000000_00000000_00000000_00110001#32 = .ok .transpose := by decide
theorem test_decode_matxor : decode 0b00000000_00000000_00000000_00110010#32 = .ok .matxor := by decide

/-- V-EN-1, the opcode alone. -/
theorem test_decode_reserved : decode 0x00000022#32 = .error .reservedOpcode := by decide
/-- V-EN-1, MBZ alone. -/
theorem test_decode_mbz : decode 0x80000010#32 = .error .mbzNotZero := by decide
theorem test_decode_table_word : decodeTableWord 32 0x16 = some .paramchk := by decide
/-- A word longer than 32 bits is no command (30_encoding.md R65). -/
theorem test_decode_table_word_long : decodeTableWord 64 0x100000000 = none := by decide

/-! ### Commands, on the reference parameters -/

/-- A record with these arguments over these buffer contents and P, Q, G. -/
def flight (args : List Nat) (buf : Memory) (p q g : Nat) : InFlight where
  word := 0#32
  args := ⟨.ofNat 32 (args.getD 0 0), .ofNat 32 (args.getD 1 0), .ofNat 32 (args.getD 2 0), .ofNat 32 (args.getD 3 0),
    .ofNat 32 (args.getD 4 0), .ofNat 32 (args.getD 5 0)⟩
  snap := ⟨buf, .ofNat 1024 p, .ofNat 1024 q, .ofNat 1024 g⟩

/-- The arrangement T23 of 95_test_vectors.md: P = 23, Q = 11, G = 4. -/
def t23 (args : List Nat) (buf : Memory := []) : InFlight := flight args buf 23 11 4

/-- The 1024-bit prime of T1024. -/
def bigP : Nat :=
  0xffffffffffffffffc90fdaa22168c234c4c6628b80dc1cd129024e088a67cc74020bbea63b139b22514a08798e3404ddef9519b3cd3a431b302b0a6df25f14374fe1356d6d51c245e485b576625e7ec6f44c42e9a637ed6b0bff5cb6f406b7edee386bfb5a899fa5ae9f24117c4b1fe649286651ece65381ffffffffffffffff

/-- T1024: P prime, Q = (P - 1) / 2, G = 2. -/
def t1024 (args : List Nat) (buf : Memory := []) : InFlight := flight args buf bigP ((bigP - 1) / 2) 2

/-- The big number v in the buffer at offset a. -/
def big (a v : Nat) : Memory := cellsOf a (beBytes 128 v)

/-- The command's pseudocode raises this error. -/
def raises (i : Instr) (f : InFlight) (e : ErrCode) : Bool :=
  match bodyOf i reference f with
  | .error x => x == e
  | .ok _ => false

/-- The command stages these byte writes and this RESULT, and no parameter. -/
def stages (i : Instr) (f : InFlight) (ws : List (Nat × List Byte)) (r : Nat) : Bool :=
  match bodyOf i reference f with
  | .error _ => false
  | .ok st => st == { writes := ws, result := BitVec.ofNat 32 r }

/-- The command stages the big number v at offset a. -/
def stagesBig (i : Instr) (f : InFlight) (a v : Nat) : Bool := stages i f [(a, beBytes 128 v)] 0

/-- The bytes with these values. -/
def bytes (ns : List Nat) : List Byte := ns.map (BitVec.ofNat 8)

/-- V-CT-1. -/
theorem test_nop : stages .nop (t23 []) [] 0 = true := by decide
/-- V-CT-3. -/
theorem test_ldp_last_offset : bodyOf .ldp reference (flight [0, 0xFF80] (big 0xFF80 23) 0 0 0) = .ok { p := some 23 } := by
  decide
/-- V-CT-4. -/
theorem test_ldp_bounds : raises .ldp (flight [0, 0xFF81] [] 0 0 0) .bounds = true := by decide
theorem test_ldq : bodyOf .ldq reference (flight [0, 0x80] (big 0x80 0x0102) 0 0 0) = .ok { q := some 258 } := by decide
/-- V-CT-5. -/
theorem test_ldg_unreduced :
    bodyOf .ldg reference (flight [0, 0] (big 0 (2 ^ 1024 - 1)) 23 0 0) = .ok { g := some (BitVec.allOnes 1024) } := by
  decide
/-- V-CT-6. -/
theorem test_stp_zero : stages .stp (flight [0] [] 0 0 0) [(0, List.replicate 128 0#8)] 0 = true := by decide
/-- V-CT-7. -/
theorem test_stq : stages .stq (t23 [0x200]) [(0x200, List.replicate 127 0#8 ++ [0x0B#8])] 0 = true := by decide
/-- V-CT-5. -/
theorem test_stg : stages .stg (flight [0x80] [] 0 0 (2 ^ 1024 - 1)) [(0x80, List.replicate 128 0xFF#8)] 0 = true := by
  decide
/-- V-CT-8. -/
theorem test_clr : Memory.writeAll (cellsOf 0 (bytes [0xaa, 0xaa, 0xaa, 0xaa])) [(1, List.replicate 2 0#8)]
    = [(0, 0xaa#8), (3, 0xaa#8)] := by decide
/-- V-CT-11: the offset and the length do not wrap. -/
theorem test_clr_no_wrap : raises .clr (t23 [0xFFFFFFFF, 0, 0, 2]) .bounds = true := by decide
/-- V-MA-4. -/
theorem test_modexp_reduces_base : stagesBig .modexp (t23 [0x100, 0, 0x80] (big 0 28 ++ big 0x80 2)) 0x100 2 = true := by
  decide
/-- V-MA-5. -/
theorem test_modexp_whole_exponent :
    stagesBig .modexp (t23 [0x100, 0, 0x80] (big 0 5 ++ big 0x80 (2 ^ 1024 - 1))) 0x100 19 = true := by decide
/-- V-MA-7. -/
theorem test_modexpg : stagesBig .modexpg (t23 [0x100, 0, 0x80] (big 0x80 5)) 0x100 12 = true := by decide
/-- V-MA-53. -/
theorem test_modexpg_big : stagesBig .modexpg (t1024 [0x100, 0, 0x80] (big 0x80 (bigP - 1))) 0x100 1 = true := by decide
/-- V-MA-10. -/
theorem test_modmul : stagesBig .modmul (t23 [0x100, 0, 0x80] (big 0 7 ++ big 0x80 10)) 0x100 1 = true := by decide
/-- V-MA-11. -/
theorem test_modmul_exact_product :
    stagesBig .modmul (t23 [0x100, 0, 0] (big 0 (2 ^ 1024 - 1))) 0x100 1 = true := by decide
/-- V-MA-47. -/
theorem test_modinv_big : stagesBig .modinv (t1024 [0x100, 0] (big 0 2)) 0x100 ((bigP + 1) / 2) = true := by decide
/-- V-MA-17. -/
theorem test_modinv_not_invertible : raises .modinv (t23 [0x100, 0] (big 0 46)) .notInvertible = true := by decide
/-- V-MA-18. -/
theorem test_qrtest : [0, 1, 2, 3, 5, 22, 23].map (fun a => stages .qrtest (t23 [0, 0] (big 0 a)) [] 1)
    = [false, true, true, true, false, false, false] := by decide
/-- V-MA-18. -/
theorem test_gentest : [0, 1, 2, 3, 5, 22, 23].map (fun a => stages .gentest (t23 [0, 0] (big 0 a)) [] 1)
    = [false, false, false, false, true, true, false] := by decide
/-- V-MA-20, V-MA-21, V-MA-22, V-MA-23. -/
theorem test_paramchk : [(11, 4), (11, 5), (0, 5), (11, 0)].map
    (fun x => stages .paramchk (flight [] [] 23 x.1 x.2) [] 1) = [true, false, true, false] := by decide
/-- V-MA-24. -/
theorem test_paramchk_bad_modulus :
    [0, 1, 2, 22, 24].map (fun p => raises .paramchk (flight [] [] p 11 4) .badModulus)
      = [true, true, true, true, true] := by decide
/-- V-MA-41: a message that is no residue is negated. -/
theorem test_encode_negates :
    stagesBig .encode (t1024 [0x100, 0, 0, 1] (cellsOf 0 (bytes [0x41]))) 0x100 (bigP - 0x141) = true := by decide
/-- V-MA-30: LENGTH is checked before BOUNDS. -/
theorem test_encode_length : raises .encode (t23 [0x100, 0xFFFF0, 0, 200]) .length = true := by decide
/-- V-MA-41. -/
theorem test_decode_restores :
    stages .decode (t1024 [0x200, 0x100] (big 0x100 (bigP - 0x141))) [(0x200, bytes [0x41])] 1 = true := by decide
/-- V-MA-35, V-MA-36, V-MA-38. -/
theorem test_decode_errors : raises .decode (t23 [0, 0] (big 0 5)) .decode = true
    ∧ raises .decode (t23 [0, 0]) .decode = true ∧ raises .decode (t23 [0, 0] (big 0 23)) .range = true := by decide
/-- V-KDF-2: the empty seed, one cut block. -/
theorem test_kdf : stages .kdf (t23 [0x100, 0, 0, 4, 0, 0]) [(0x100, bytes [0xdf, 0x3f, 0x61, 0x98])] 0 = true := by
  decide
/-- V-KDF-7: the second block is the hash of the first. -/
theorem test_kdf_two_blocks :
    ((kdfPad reference 40 1#32 (bytes [0x73, 0x65, 0x65, 0x64])).drop 32)
      = bytes [0x9a, 0x1e, 0x25, 0x17, 0x5b, 0x4b, 0xc0, 0x0b] := by decide
/-- V-KDF-13. -/
theorem test_kdfxor :
    stages .kdfxor (t23 [0x100, 0, 0x40, 4, 1, 4]
      (cellsOf 0 (bytes [0x73, 0x65, 0x65, 0x64]) ++ cellsOf 0x40 (bytes [0x41, 0x41, 0x41, 0x41])))
      [(0x100, bytes [0x21, 0x3c, 0x79, 0x25])] 0 = true := by decide
/-- V-KDF-15. -/
theorem test_kdfxor_bounds : raises .kdfxor (t23 [0, 0, 0xFFFF, 4]) .bounds = true := by decide
/-- V-BM-17: the columns of 2 bytes lie 3 bytes apart. -/
theorem test_pack_stride :
    (Memory.writeAll [] (((bodyOf .pack reference (t23 [0x100, 0, 0, 16, 16, 3]
        (cellsOf 0 (bytes [1, 2, 0xee, 3, 4, 0xee, 5, 6])))).toOption.map Staged.writes).getD [])).take 6
      = cellsOf 0x100 (bytes [1, 2, 3, 4, 5, 6]) := by decide
/-- V-BM-19, V-BM-20, V-BM-21. -/
theorem test_pack_bounds : raises .pack (t23 [0, 0xFFF0, 0, 8, 8, 2]) .bounds = false
    ∧ raises .pack (t23 [0, 0xFFF0, 0, 8, 8, 3]) .bounds = true
    ∧ stages .pack (t23 [0, 0xFFFFFFFF, 0, 8, 0, 5]) [] 0 = true := by decide
/-- V-BM-4. -/
theorem test_transpose :
    stages .transpose (t23 [0, 0, 0, 16, 8] (cellsOf 0 (bytes (List.range 16))))
      [(0, bytes [0, 0, 0, 0, 0x0f, 0x33, 0x55, 0, 0, 0, 0, 0, 0x0f, 0x33, 0x55, 0xff])] 0 = true := by decide
/-- V-BM-8, V-BM-12. -/
theorem test_transpose_errors : raises .transpose (t23 [0, 0, 0, 12, 8]) .dim = true
    ∧ raises .transpose (t23 [0, 0, 0, 0x80000000, 8]) .bounds = true := by decide
/-- V-BM-14. -/
theorem test_matxor :
    stages .matxor (t23 [0, 0x100, 0, 16, 8] (cellsOf 0 (bytes (List.range 16)) ++ cellsOf 0x100 (bytes [0xaa, 0x0f])))
      [(0, bytes [0xaa, 0x0e, 0xa8, 0x0c, 0xae, 0x0a, 0xac, 0x08, 0xa2, 0x06, 0xa0, 0x04, 0xa6, 0x02, 0xa4, 0x00])] 0
      = true := by decide
/-- V-BM-16: the vector is read from the snapshot. -/
theorem test_matxor_inside :
    stages .matxor (t23 [0, 0, 0, 16, 8] (cellsOf 0 (bytes (List.range 16))))
      [(0, bytes [0, 0, 2, 2, 4, 4, 6, 6, 8, 8, 10, 10, 12, 12, 14, 14])] 0 = true := by decide

/-! ### The life of a command, registers and host faults -/

/-- The fault a step stops with. -/
def faultOf : Outcome → Option Fault
  | .fault r => some r
  | _ => none

/-- The state a step goes to. -/
def nextOf : Outcome → Option State
  | .next t => some t
  | _ => none

/-- V-EN-1: an illegal word is counted, read back, and ends with ILLEGAL_CMD. -/
theorem test_illegal_word :
    (match step (State.reset.withFetchWord 32 0x80000010) with
      | .next t => (State.statusWord t, t.cmdcnt, t.cmd) == (0x00000104#32, 1#32, 0x80000010#32)
      | _ => false) = true := by decide
/-- V-LC-1, V-LC-2: a second CMD write is dropped. -/
theorem test_overrun :
    (let s := writeReg (State.accept State.reset 0#32) .cmd 0x08#32
     (State.statusWord s, s.cmdcnt, s.cmd) == (0x00000009#32, 1#32, 0#32)) = true := by decide
/-- V-LC-5: NOP ends DONE and the IRQ line follows IRQ_EN. -/
theorem test_nop_irq :
    (match step (State.withFetchWord (State.ctrlWrite State.reset 1#32) 32 0) with
      | .next t => (State.statusWord t, State.irq t) == (0x00000002#32, true)
      | _ => false) = true := by decide
/-- V-LC-7, V-LC-8, V-LC-9: the W1C bits of STATUS. -/
theorem test_status_w1c :
    (let s := { State.reset with irqEn := true, err := true, errcode := 0x03#8 }
     (State.statusWord (State.statusWrite s 2#32), State.statusWord (State.statusWrite s 4#32))
       == (0x00000304#32, 0#32)) = true := by decide
/-- V-LC-13: a reset wins over IRQ_EN. -/
theorem test_reset_wins :
    writeReg (State.accept { State.reset with p := 23, cmdcnt := 9#32 } 0x11#32) .ctrl 3#32 = State.reset := by decide
/-- V-LC-14. -/
theorem test_cmdcnt_wraps : (State.accept { State.reset with cmdcnt := 0xFFFFFFFF#32 } 0#32).cmdcnt = 0#32 := by decide
/-- V-RG-3. -/
theorem test_constants : (readReg reference State.reset .bufsize, readReg reference State.reset .hashlen)
    = (0x00010000#32, 0x20#32) := by decide
/-- V-HF-1. -/
theorem test_narrow_register_access :
    faultOf (hostRead reference (reference.regBase + 0x0C) 2 State.reset) = some .registerAccess := by decide
/-- V-HF-2. -/
theorem test_buffer_while_busy :
    faultOf (hostWrite reference (reference.bufBase + 0x10) 1 0#32 (State.accept State.reset 0#32))
      = some .bufferWhileBusy := by
  decide
/-- V-HF-3. -/
theorem test_misaligned_buffer_access :
    faultOf (hostRead reference (reference.bufBase + 2) 4 State.reset) = some .bufferAccess := by decide
/-- 20_memory.md R46: the byte at the lowest offset is the least significant lane. -/
theorem test_lanes :
    (nextOf (hostWrite reference (reference.bufBase + 4) 4 0x44332211#32 State.reset)).map State.buf
      = some (cellsOf 4 (bytes [0x11, 0x22, 0x33, 0x44])) := by decide

/-- 20_memory.md R48: the byte after the last is a host fault, not an access that misses the engine. -/
theorem test_offset_beyond_buffer :
    [hostAccess reference (.readBuf 0x10000 1) State.reset, hostAccess reference (.writeBuf 0xFFFE 4 0#32) State.reset].map
      faultOf = [some .bufferAccess, some .bufferAccess] := by decide

/-! ### Listings and host programs -/

/-- 30_encoding.md R78. -/
theorem test_listing_illegal :
    disassemble 0x80000010#32 ⟨0#32, 0#32, 0#32, 0#32, 0#32, 0#32⟩ = ".word 0x80000010 ; ILLEGAL" := by decide
/-- 30_encoding.md R77: the argument writes in the order written, then CMD. -/
theorem test_issue : issue .modexpg [(.dst, .const 0x200), (.exp, .const 0x180)]
    = [.wr32 .arg0 (.const 0x200), .wr32 .arg2 (.const 0x180), .wr32 .cmd (.const 0x11)] := by decide

/-- 95_test_vectors.md V-CT-3 writes `src=0xFF80`; a length is no offset. -/
theorem test_listing_offset_and_length :
    [disassemble 0x01#32 ⟨0#32, 0xFF80#32, 0#32, 0#32, 0#32, 0#32⟩, disassemble 0x08#32 ⟨0x10#32, 0#32, 0#32, 12#32, 0#32, 0#32⟩]
      = ["LDP src=0xFF80", "CLR dst=0x010, len=12"] := by decide
/-- 00_scope.md R11: `be_bytes(128, v)` is defined for v < 2^1024 alone. -/
theorem test_be_bytes_range :
    [HostExpr.eval [] (.beBytes 128 (.const (2 ^ 1024))), HostExpr.eval [] (.beBytes 2 (.const 0x0102))]
      = [none, some (.str (bytes [1, 2]))] := by decide
/-- 30_encoding.md R76: the length of an `rdbuf` is an expression. -/
theorem test_rdbuf_length_expression :
    (beginLine reference [] ⟨0, [], [("n", .num 1)], []⟩ (.rdbuf (.const 8) (.add (.var "n") (.const 1)) "x")).map
      HostState.queue = some [(.readBuf 8 1, .byte "x"), (.readBuf 9 1, .byte "x")] := by decide
/-- 20_memory.md R48, 60_exceptions.md R127: a `wrbuf` byte beyond the buffer's end ends the run with a host fault. -/
theorem test_wrbuf_beyond_buffer :
    (beginLine reference [] (HostState.start []) (.wrbuf (.const 0x10000) (.hex [1#8]))).map
      (fun h => hostTurn reference [] ⟨h, State.reset⟩) = some (.hostFault .bufferAccess) := by decide

/-- 95_test_vectors.md section 7: a program ends at `end:`, and what stands after it is reached by its label alone. -/
theorem test_program_ends_at_end :
    (let prog : List HostLine := [.ifGoto .always "end", .wr32 .cmd (.const 0), .label "end", .label "error", .wr32 .ctrl (.const 2)]
     match hostTurn reference prog ⟨HostState.start [], State.reset⟩ with
      | .running r => (r.host.line, HostRun.final prog r, hostTurn reference prog r == .ended) == (2, true, true)
      | _ => false) = true := by decide

end Sys2Proof.Tests
end

