-- ==== Sys2Proof/Tests/Witnesses.lean ====
section
/-! SUPPORT. For every obligation that has hypotheses, a concrete state and operands that meet them, clause by clause,
at the boundary of each range. BUF_SIZE is not known, so a boundary offset is written in terms of it. -/

namespace Sys2Proof.Tests

open Sys2Proof.Machine

set_option maxRecDepth 100000
set_option exponentiation.threshold 2000

/-- The last offset at which n bytes fit. -/
def lastFit (n : Nat) : Word := BitVec.ofNat 32 (Config.platform.bufSize - n)

/-- The first offset at which n bytes do not fit. -/
def firstMiss (n : Nat) : Word := BitVec.ofNat 32 (Config.platform.bufSize - n + 1)

theorem lastFit_toNat (n : Nat) : (lastFit n).toNat = Config.platform.bufSize - n := by
  have := Params.bufSize_le Config.platform
  simp only [lastFit, BitVec.toNat_ofNat]; omega

theorem firstMiss_toNat (n : Nat) : (firstMiss n).toNat = Config.platform.bufSize - n + 1 := by
  have := Params.bufSize_le Config.platform
  simp only [firstMiss, BitVec.toNat_ofNat]; omega

theorem fits_lastFit (n : Nat) (hn : n ≤ 1024) : Fits (lastFit n).toNat n := by
  have := Params.bufSize_ge Config.platform
  rw [lastFit_toNat]; show _ + _ ≤ _; omega

theorem not_fits_firstMiss (n : Nat) (_ : n ≤ 1024) : ¬ Fits (firstMiss n).toNat n := by
  have := Params.bufSize_ge Config.platform
  rw [firstMiss_toNat]; show ¬ _ + _ ≤ _; omega

theorem fits_small (a n : Nat) (h : a + n ≤ 1024) : Fits a n := le_trans h (Params.bufSize_ge _)

/-- A record with these arguments over these buffer contents and this P. -/
def wit (a0 a1 a2 a3 a4 a5 : Word) (p : Nat := 23) (buf : Memory := []) : InFlight where
  word := 0#32
  args := ⟨a0, a1, a2, a3, a4, a5⟩
  snap := ⟨buf, .ofNat 1024 p, 11#1024, 4#1024⟩

/-- The reset state with this record in flight and its buffer contents. -/
def busyWith (f : InFlight) : State :=
  { State.reset with inflight := some f, cmd := f.word, buf := f.snap.buf, p := f.snap.p, q := f.snap.q, g := f.snap.g }

/-- Some state has a record in flight that meets this. -/
def Met (h : InFlight → Prop) : Prop := ∃ (s : State) (f : InFlight), s.inflight = some f ∧ h f

theorem met (h : InFlight → Prop) (f : InFlight) (hf : h f) : Met h := ⟨busyWith f, f, rfl, hf⟩

/-- The reset state with these events to come. -/
def awaiting (es : List Event) : State := { State.reset with pending := es }

/-- The host's next access writes v to this register offset. -/
def writing (off : Nat) (v : Word) (s : State) : State :=
  { s with pending := [.host (.write (Config.platform.regBase + off) 4 v)] }

/-- The host's next access reads this register offset. -/
def reading (off : Nat) (s : State) : State :=
  { s with pending := [.host (.read (Config.platform.regBase + off) 4)] }

/-- The reset state with NOP in flight. -/
def busyNop : State := busyWith (wit 0 0 0 0 0 0)

/-! ### The step and the life of a command -/

theorem witness_StepRunsTheDecodedCommand :
    (∃ s f i rest, EngineNext s rest ∧ s.pending ≠ [] ∧ s.inflight = some f ∧ decode f.word = .ok i)
    ∧ ∃ s f i rest, EngineNext s rest ∧ s.pending = [] ∧ s.inflight = some f ∧ decode f.word = .ok i :=
  ⟨⟨{ busyNop with pending := [.complete] }, wit 0 0 0 0 0 0, .nop, [], .inl rfl, by decide, rfl, by decide⟩,
   ⟨busyNop, wit 0 0 0 0 0 0, .nop, [], .inr ⟨rfl, rfl⟩, rfl, rfl, by decide⟩⟩

/-- IDLE with the engine's step next and with no event left, and BUSY. -/
theorem witness_IdleEngineDoesNothing :
    (∃ s rest, EngineNext s rest ∧ s.pending ≠ [] ∧ s.inflight = none)
    ∧ (∃ s rest, EngineNext s rest ∧ s.pending = [] ∧ s.inflight = none)
    ∧ ∃ s f rest, EngineNext s rest ∧ s.inflight = some f :=
  ⟨⟨awaiting [.complete, .powerOn], [.powerOn], .inl rfl, by decide, rfl⟩,
   ⟨State.reset, [], .inr ⟨rfl, rfl⟩, rfl, rfl⟩, ⟨busyNop, _, [], .inr ⟨rfl, rfl⟩, rfl⟩⟩

theorem witness_IllegalWordEndsWithIllegalCmd :
    ∃ s f rest, EngineNext s rest ∧ s.inflight = some f ∧ (commandFields f.word).wellFormed = false :=
  ⟨busyWith { wit 0 0 0 0 0 0 with word := 0x04#32 }, _, [], .inr ⟨rfl, rfl⟩, rfl, by decide⟩

theorem witness_CmdWriteAccepts : ∃ s w rest, HostWrites s 0x10 w rest ∧ s.inflight = none :=
  ⟨writing 0x10 8#32 State.reset, 8#32, [], rfl, rfl⟩

theorem witness_CmdRegisterBehaves :
    (∃ s w rest, HostWrites s 0x10 w rest ∧ s.inflight = none)
    ∧ (∃ s w f rest, HostWrites s 0x10 w rest ∧ s.inflight = some f) ∧ ∃ s rest, HostReads s 0x10 rest :=
  ⟨witness_CmdWriteAccepts, ⟨writing 0x10 8#32 busyNop, 8#32, _, [], rfl, rfl⟩, reading 0x10 State.reset, [], rfl⟩

theorem witness_OvrIsSticky : ∃ s t, step s = .next t ∧ s.ovr = true ∧ t.ovr = false :=
  ⟨{ awaiting [.powerOn] with ovr := true }, _, rfl, rfl, rfl⟩

theorem witness_ResetFromAnyPhase :
    (∃ s v rest, HostWrites s 0x08 v rest ∧ v.getLsbD 1 = true ∧ s.inflight ≠ none)
    ∧ ∃ (s : State) (rest : List Event), s.pending = .powerOn :: rest :=
  ⟨⟨writing 0x08 3#32 busyNop, 3#32, [], rfl, by decide, by decide⟩, awaiting [.powerOn], [], rfl⟩

theorem witness_ErrorsArePrecise :
    ∃ s t f rest, EngineNext s rest ∧ s.inflight = some f ∧ s.err = false ∧ step s = .next t ∧ t.err = true :=
  ⟨busyWith { wit 0 0 0 0 0 0 with word := 0x04#32 }, _, _, [], .inr ⟨rfl, rfl⟩, rfl, rfl, rfl, rfl⟩

theorem busyNop_inv : State.Inv { State.reset with inflight := some ⟨0#32, ⟨0, 0, 0, 0, 0, 0⟩, ⟨[], 0, 0, 0⟩⟩ } :=
  ⟨by decide, by decide, by decide, by decide, by decide, by decide,
   fun f hf => by cases hf; exact ⟨rfl, rfl, rfl, rfl, rfl⟩⟩

theorem witness_EveryCommandCompletes :
    ∃ s f rest, State.Inv s ∧ EngineNext s rest ∧ s.inflight = some f :=
  ⟨_, _, [], busyNop_inv, .inr ⟨rfl, rfl⟩, rfl⟩

theorem witness_CommandsAreFunctionsOfTheRecord :
    ∃ (i : Instr) (s s' t t' : State) (f : InFlight), s.inflight = some f ∧ s'.inflight = some f ∧ s'.buf = s.buf
      ∧ s'.p = s.p ∧ s'.q = s.q ∧ s'.g = s.g ∧ s.err = false ∧ s'.err = false ∧ s.result = s'.result
      ∧ exec i s = .next t ∧ exec i s' = .next t' ∧ s ≠ s' :=
  ⟨.nop, busyNop, { busyNop with cmdcnt := 7#32 }, _, _, _, rfl, rfl, rfl, rfl, rfl, rfl, rfl, rfl, rfl, rfl, rfl,
   by decide⟩

theorem witness_IgnoredArgumentsHaveNoEffect :
    ∃ (i : Instr) (f f' : InFlight), f'.word = f.word ∧ f'.snap = f.snap
      ∧ (∀ o ∈ argRoles i, argValue f'.args o.2 = argValue f.args o.2) ∧ f ≠ f' :=
  ⟨.ldp, wit 0 0 0 0 0 0, wit 1 0 0 0 0 0, rfl, rfl, by decide, by decide⟩

theorem witness_IrqFollowsCommandEnd :
    (∃ (i : Instr) (s t : State) (f : InFlight), s.inflight = some f ∧ exec i s = .next t)
    ∧ (∃ s t w rest, HostWrites s 0x10 w rest ∧ s.inflight = none ∧ step s = .next t)
    ∧ ∃ s t v rest, HostWrites s 0x0C v rest ∧ v.getLsbD 1 = true ∧ v.getLsbD 2 = true ∧ step s = .next t :=
  ⟨⟨.nop, busyNop, _, _, rfl, rfl⟩,
   ⟨writing 0x10 8#32 State.reset, _, 8#32, [], rfl, rfl, step_of_hostWrites _ 0x10 8#32 [] rfl (by decide) (by decide)⟩,
   ⟨writing 0x0C 6#32 State.reset, _, 6#32, [], rfl, by decide, by decide,
    step_of_hostWrites _ 0x0C 6#32 [] rfl (by decide) (by decide)⟩⟩

/-- Both sides of the disjunction: a reset, and the end of LDP with a P that changes. -/
theorem witness_ParametersChangeOnlyByLoadOrReset :
    (∃ s t, step s = .next t ∧ s.pending = [.powerOn] ∧ t.p ≠ s.p)
    ∧ ∃ s t, step s = .next t ∧ EngineNext s [] ∧ t.p ≠ s.p :=
  ⟨⟨{ awaiting [.powerOn] with p := 23 }, _, rfl, rfl, by decide⟩,
   busyWith { wit 0 0 0 0 0 0 with word := 1#32 }, _, rfl, .inr ⟨rfl, rfl⟩, by decide⟩

/-! ### The registers and the host's accesses -/

theorem witness_CtrlRegisterBehaves :
    (∃ s rest, HostReads s 0x08 rest) ∧ (∃ s v rest, HostWrites s 0x08 v rest ∧ v.getLsbD 1 = false)
    ∧ ∃ s v rest, HostWrites s 0x08 v rest ∧ v.getLsbD 1 = true :=
  ⟨⟨reading 0x08 State.reset, [], rfl⟩, ⟨writing 0x08 0xFFFFFFFD#32 State.reset, _, [], rfl, by decide⟩,
   ⟨writing 0x08 0xFFFFFFFF#32 State.reset, _, [], rfl, by decide⟩⟩

theorem witness_StatusRegisterBehaves :
    (∃ s rest, HostReads s 0x0C rest) ∧ ∃ s v rest, HostWrites s 0x0C v rest :=
  ⟨⟨reading 0x0C busyNop, [], rfl⟩, ⟨writing 0x0C 0xFFFFFFFF#32 busyNop, _, [], rfl⟩⟩

/-- Every offset of the window can be the next access's, the last reserved one among them. -/
theorem witness_ReadOnlyRegistersBehave :
    (∀ off, ∃ s rest, HostReads s off rest) ∧ (∀ off v, ∃ s rest, HostWrites s off v rest)
    ∧ (0xFC % 4 = 0 ∧ 0x3C ≤ 0xFC ∧ 0xFC ≤ 0xFC) ∧ 0x34 % 4 = 0 ∧ 0x34 ∈ [0x00, 0x04, 0x2C, 0x30, 0x34, 0x38] :=
  ⟨fun off => ⟨reading off State.reset, [], rfl⟩, fun off v => ⟨writing off v State.reset, [], rfl⟩, by decide, by decide,
   by decide⟩

theorem witness_ArgumentRegistersBehave :
    (∃ s v rest, HostWrites s (argOffset .arg5) v rest ∧ s.inflight ≠ none) ∧ (∃ s rest, HostReads s (argOffset .arg0) rest)
    ∧ (∃ i s t, exec i s = .next t) ∧ ∃ s w rest, HostWrites s 0x10 w rest ∧ s.inflight = none :=
  ⟨⟨writing 0x28 7#32 busyNop, _, [], rfl, by decide⟩, ⟨reading 0x14 State.reset, [], rfl⟩, ⟨.nop, busyNop, _, rfl⟩,
   witness_CmdWriteAccepts⟩

/-- The offset of the last word of the buffer. -/
def lastWord : Nat := Config.platform.bufSize - 4

theorem lastWord_fits : lastWord % 4 = 0 ∧ Fits lastWord 4 := by
  have h1 := Params.bufSize_ge Config.platform
  have h2 := Params.bufSize_mod Config.platform
  refine ⟨?_, ?_⟩ <;> simp only [lastWord] <;> omega

/-- The last word of the buffer: read and written, by its address and by its offset. -/
theorem witness_HostBufferAccess :
    (∃ (s : State) (off n : Nat), s.inflight = none ∧ n = 4 ∧ off % n = 0 ∧ Fits off n
      ∧ s.pending = [.host (.read (Config.platform.bufBase + off) n)])
    ∧ (∃ (s : State) (off n : Nat), s.inflight = none ∧ n = 4 ∧ off % n = 0 ∧ Fits off n
      ∧ s.pending = [.host (.readBuf off n)])
    ∧ (∃ (s : State) (off n : Nat), s.inflight = none ∧ n = 4 ∧ off % n = 0 ∧ Fits off n
      ∧ s.pending = [.host (.write (Config.platform.bufBase + off) n 5#32)])
    ∧ ∃ (s : State) (off n : Nat), s.inflight = none ∧ n = 4 ∧ off % n = 0 ∧ Fits off n
      ∧ s.pending = [.host (.writeBuf off n 5#32)] :=
  ⟨⟨awaiting [.host (.read (Config.platform.bufBase + lastWord) 4)], lastWord, 4, rfl, rfl, lastWord_fits.1, lastWord_fits.2,
      rfl⟩,
    ⟨awaiting [.host (.readBuf lastWord 4)], lastWord, 4, rfl, rfl, lastWord_fits.1, lastWord_fits.2, rfl⟩,
    ⟨awaiting [.host (.write (Config.platform.bufBase + lastWord) 4 5#32)], lastWord, 4, rfl, rfl, lastWord_fits.1,
      lastWord_fits.2, rfl⟩,
    ⟨awaiting [.host (.writeBuf lastWord 4 5#32)], lastWord, 4, rfl, rfl, lastWord_fits.1, lastWord_fits.2, rfl⟩⟩

/-- The last byte of each window, the first byte above both, and the offset BUF_SIZE. -/
theorem witness_HostFaultsAreThese :
    (∃ (s : State) (rest : List Event) (op : HostOp) (addr : Nat), op = .read addr 1 ∧ s.pending = .host op :: rest
      ∧ addr = Config.platform.regBase + 255)
    ∧ (∃ (s : State) (rest : List Event) (op : HostOp) (addr off : Nat), op = .read addr 1 ∧ s.pending = .host op :: rest
      ∧ addr = Config.platform.bufBase + off ∧ off < Config.platform.bufSize ∧ off + 1 = Config.platform.bufSize)
    ∧ (∃ (s : State) (rest : List Event) (op : HostOp) (addr : Nat), op = .read addr 1 ∧ s.pending = .host op :: rest
      ∧ Config.platform.regBase + 256 ≤ addr ∧ Config.platform.bufBase + Config.platform.bufSize ≤ addr)
    ∧ ∃ (s : State) (rest : List Event) (op : HostOp) (off : Nat), op = .readBuf off 1 ∧ s.pending = .host op :: rest
      ∧ off = Config.platform.bufSize := by
  have h1 := Params.bufSize_ge Config.platform
  exact ⟨⟨awaiting [.host (.read (Config.platform.regBase + 255) 1)], [], _, _, rfl, rfl, rfl⟩,
    ⟨awaiting [.host (.read (Config.platform.bufBase + (Config.platform.bufSize - 1)) 1)], [], _, _,
      Config.platform.bufSize - 1, rfl, rfl, rfl, by omega, by omega⟩,
    ⟨awaiting [.host (.read (max (Config.platform.regBase + 256) (Config.platform.bufBase + Config.platform.bufSize)) 1)],
      [], _, _, rfl, rfl, le_max_left _ _, le_max_right _ _⟩,
    ⟨awaiting [.host (.readBuf Config.platform.bufSize 1)], [], _, _, rfl, rfl, rfl⟩⟩

/-- A read of STATUS, and of the first byte of the buffer by its offset. -/
theorem witness_HostReadsHaveNoSideEffect :
    (∃ s t rest op a width, op = HostOp.read a width ∧ s.pending = .host op :: rest ∧ step s = .next t)
    ∧ ∃ s t rest op a width, op = HostOp.readBuf a width ∧ s.pending = .host op :: rest ∧ step s = .next t := by
  have h1 := Params.bufSize_ge Config.platform
  refine ⟨⟨reading 0x0C busyNop, _, [], _, _, 4, rfl, rfl, step_of_hostReads _ 0x0C [] rfl (by decide) (by decide)⟩,
    ⟨awaiting [.host (.readBuf 0 1)], _, [], _, 0, 1, rfl, rfl,
      ((bufferRead_cases Config.platform 0 1 State.reset).resolve_left fun h => h.1 ⟨?_, rfl⟩).2.2⟩⟩
  rw [bufferShape_iff]
  exact ⟨.inl rfl, rfl, by omega⟩

theorem witness_StepKeepsTheInvariant : ∃ s t, State.Inv s ∧ step s = .next t := ⟨_, _, busyNop_inv, rfl⟩

/-! ### Control and parameter commands -/

theorem witness_NopResult : Met (fun _ => True)
    ∧ ∃ s rest, HostWrites s 0x10 0x00000000#32 (.complete :: rest) ∧ s.inflight = none :=
  ⟨met _ (wit 0 0 0 0 0 0) trivial,
   awaiting [.host (.write (Config.platform.regBase + 0x10) 4 0#32), .complete], [], rfl, rfl⟩

theorem witness_LdpResult : Met (fun f => ¬ Fits f.arg1 128) ∧ Met (fun f => Fits f.arg1 128) :=
  ⟨met _ (wit 0 (firstMiss 128) 0 0 0 0) (not_fits_firstMiss 128 (by norm_num)),
   met _ (wit 0 (lastFit 128) 0 0 0 0) (fits_lastFit 128 (by norm_num))⟩

theorem witness_LdqResult : Met (fun f => ¬ Fits f.arg1 128) ∧ Met (fun f => Fits f.arg1 128) := witness_LdpResult

theorem witness_LdgResult : Met (fun f => ¬ Fits f.arg1 128) ∧ Met (fun f => Fits f.arg1 128) := witness_LdpResult

theorem witness_StoreParameterResult : Met (fun f => ¬ Fits f.arg0 128) ∧ Met (fun f => Fits f.arg0 128) :=
  ⟨met _ (wit (firstMiss 128) 0 0 0 0 0) (not_fits_firstMiss 128 (by norm_num)),
   met _ (wit (lastFit 128) 0 0 0 0 0) (fits_lastFit 128 (by norm_num))⟩

/-- The empty range at BUF_SIZE fits, and one above it does not (V-CT-9, V-CT-10). -/
theorem witness_ClrResult : Met (fun f => ¬ Fits f.arg0 f.arg3) ∧ Met (fun f => Fits f.arg0 f.arg3) :=
  ⟨met _ (wit (firstMiss 0) 0 0 0 0 0) (not_fits_firstMiss 0 (by norm_num)),
   met _ (wit (lastFit 0) 0 0 0 0 0) (fits_lastFit 0 (by norm_num))⟩

/-! ### Modular arithmetic commands -/

/-- P = 1 is odd and too small, P = 3 the least that passes (41_modarith.md R87). -/
theorem witness_bad_modulus : Met (fun f => ¬ GoodModulus f) := met _ (wit 0 0 0 0 0 0 1) (by decide)

theorem witness_ModexpResult : Met (fun f => ¬ GoodModulus f)
    ∧ Met (fun f => GoodModulus f ∧ ¬ (Fits f.arg1 128 ∧ Fits f.arg2 128 ∧ Fits f.arg0 128))
    ∧ Met (fun f => GoodModulus f ∧ Fits f.arg1 128 ∧ Fits f.arg2 128 ∧ Fits f.arg0 128) :=
  ⟨witness_bad_modulus,
   met _ (wit (firstMiss 128) 0 0 0 0 0 3) ⟨by decide, fun h => not_fits_firstMiss 128 (by norm_num) h.2.2⟩,
   met _ (wit (lastFit 128) (lastFit 128) (lastFit 128) 0 0 0 3)
     ⟨by decide, fits_lastFit 128 (by norm_num), fits_lastFit 128 (by norm_num), fits_lastFit 128 (by norm_num)⟩⟩

theorem witness_ModexpgResult : Met (fun f => ¬ GoodModulus f)
    ∧ Met (fun f => GoodModulus f ∧ ¬ (Fits f.arg2 128 ∧ Fits f.arg0 128))
    ∧ Met (fun f => GoodModulus f ∧ Fits f.arg2 128 ∧ Fits f.arg0 128) :=
  ⟨witness_bad_modulus,
   met _ (wit (firstMiss 128) 0 0 0 0 0 3) ⟨by decide, fun h => not_fits_firstMiss 128 (by norm_num) h.2⟩,
   met _ (wit (lastFit 128) 0 (lastFit 128) 0 0 0 3)
     ⟨by decide, fits_lastFit 128 (by norm_num), fits_lastFit 128 (by norm_num)⟩⟩

theorem witness_ModmulResult : Met (fun f => ¬ GoodModulus f)
    ∧ Met (fun f => GoodModulus f ∧ ¬ (Fits f.arg1 128 ∧ Fits f.arg2 128 ∧ Fits f.arg0 128))
    ∧ Met (fun f => GoodModulus f ∧ Fits f.arg1 128 ∧ Fits f.arg2 128 ∧ Fits f.arg0 128) := witness_ModexpResult

/-- The operand 0 has no inverse, the operand 1 has. -/
theorem witness_ModinvResult : Met (fun f => ¬ GoodModulus f)
    ∧ Met (fun f => GoodModulus f ∧ ¬ (Fits f.arg1 128 ∧ Fits f.arg0 128))
    ∧ Met (fun f => GoodModulus f ∧ Fits f.arg1 128 ∧ Fits f.arg0 128
        ∧ Nat.gcd (elemAt f.snap.buf f.arg1) f.modulus ≠ 1)
    ∧ Met (fun f => GoodModulus f ∧ Fits f.arg1 128 ∧ Fits f.arg0 128
        ∧ Nat.gcd (elemAt f.snap.buf f.arg1) f.modulus = 1) :=
  ⟨witness_bad_modulus,
   met _ (wit (firstMiss 128) 0 0 0 0 0 3) ⟨by decide, fun h => not_fits_firstMiss 128 (by norm_num) h.2⟩,
   met _ (wit (lastFit 128) 0 0 0 0 0 3)
     ⟨by decide, fits_small 0 128 (by norm_num), fits_lastFit 128 (by norm_num), by decide⟩,
   met _ (wit (lastFit 128) 0 0 0 0 0 3 [(127, 1#8)])
     ⟨by decide, fits_small 0 128 (by norm_num), fits_lastFit 128 (by norm_num), by decide⟩⟩

theorem witness_QrtestResult : Met (fun f => ¬ GoodModulus f) ∧ Met (fun f => GoodModulus f ∧ ¬ Fits f.arg1 128)
    ∧ Met (fun f => GoodModulus f ∧ Fits f.arg1 128) :=
  ⟨witness_bad_modulus, met _ (wit 0 (firstMiss 128) 0 0 0 0 3) ⟨by decide, not_fits_firstMiss 128 (by norm_num)⟩,
   met _ (wit 0 (lastFit 128) 0 0 0 0 3) ⟨by decide, fits_lastFit 128 (by norm_num)⟩⟩

theorem witness_GentestResult : Met (fun f => ¬ GoodModulus f) ∧ Met (fun f => GoodModulus f ∧ ¬ Fits f.arg1 128)
    ∧ Met (fun f => GoodModulus f ∧ Fits f.arg1 128) := witness_QrtestResult

theorem witness_ParamchkResult : Met (fun f => ¬ GoodModulus f) ∧ Met (fun f => GoodModulus f) :=
  ⟨witness_bad_modulus, met _ (wit 0 0 0 0 0 0 3) (by decide)⟩

/-- The value ENCODE forms from the message. -/
def encoded (f : InFlight) : Nat := 2 ^ (8 * f.arg3) + beInt (Memory.readBytes f.snap.buf f.arg1 f.arg3)

/-- The empty message has the value 1, which is (P - 1) / 2 for P = 3; a byte of 0 has the value 256, too much for
P = 511 and (P - 1) / 2 for P = 513. -/
theorem witness_EncodeResult : Met (fun f => ¬ GoodModulus f) ∧ Met (fun f => GoodModulus f ∧ 128 ≤ f.arg3)
    ∧ Met (fun f => GoodModulus f ∧ f.arg3 < 128 ∧ ¬ (Fits f.arg1 f.arg3 ∧ Fits f.arg0 128))
    ∧ Met (fun f => GoodModulus f ∧ f.arg3 < 128 ∧ Fits f.arg1 f.arg3 ∧ Fits f.arg0 128
        ∧ (f.modulus - 1) / 2 < encoded f)
    ∧ Met (fun f => GoodModulus f ∧ f.arg3 < 128 ∧ Fits f.arg1 f.arg3 ∧ Fits f.arg0 128
        ∧ encoded f ≤ (f.modulus - 1) / 2) :=
  ⟨witness_bad_modulus, met _ (wit 0 0 0 128 0 0 3) (by decide),
   met _ (wit 0 (firstMiss 127) 0 127 0 0 3) ⟨by decide, by decide, fun h => not_fits_firstMiss 127 (by norm_num) h.1⟩,
   met _ (wit (lastFit 128) 0 0 1 0 0 511)
     ⟨by decide, by decide, fits_small 0 1 (by norm_num), fits_lastFit 128 (by norm_num), by decide⟩,
   met _ (wit (lastFit 128) 0 0 1 0 0 513)
     ⟨by decide, by decide, fits_small 0 1 (by norm_num), fits_lastFit 128 (by norm_num), by decide⟩⟩

/-- DECODE's element after the fold. -/
def folded (f : InFlight) : Nat :=
  if (f.modulus - 1) / 2 < elemAt f.snap.buf f.arg1 then f.modulus - elemAt f.snap.buf f.arg1
  else elemAt f.snap.buf f.arg1

/-- With P = 1023 the element 0x141 has its top bit at place 8; 23 is not below P = 23; 0 and 2 do not decode. -/
theorem witness_DecodeResult : Met (fun f => ¬ GoodModulus f) ∧ Met (fun f => GoodModulus f ∧ ¬ Fits f.arg1 128)
    ∧ Met (fun f => GoodModulus f ∧ Fits f.arg1 128 ∧ f.modulus ≤ elemAt f.snap.buf f.arg1)
    ∧ Met (fun f => GoodModulus f ∧ Fits f.arg1 128 ∧ elemAt f.snap.buf f.arg1 < f.modulus ∧ folded f = 0)
    ∧ Met (fun f => GoodModulus f ∧ Fits f.arg1 128 ∧ elemAt f.snap.buf f.arg1 < f.modulus
        ∧ Nat.log2 (folded f) % 8 ≠ 0)
    ∧ Met (fun f => GoodModulus f ∧ Fits f.arg1 128 ∧ elemAt f.snap.buf f.arg1 < f.modulus ∧ folded f ≠ 0
        ∧ Nat.log2 (folded f) % 8 = 0 ∧ ¬ Fits f.arg0 (Nat.log2 (folded f) / 8))
    ∧ Met (fun f => GoodModulus f ∧ Fits f.arg1 128 ∧ elemAt f.snap.buf f.arg1 < f.modulus ∧ folded f ≠ 0
        ∧ Nat.log2 (folded f) % 8 = 0 ∧ Fits f.arg0 (Nat.log2 (folded f) / 8)) := by
  have hn : Nat.log2 (folded (wit 0 0 0 0 0 0 1023 [(126, 0x01#8), (127, 0x41#8)])) / 8 = 1 := by decide
  refine ⟨witness_bad_modulus, met _ (wit 0 (firstMiss 128) 0 0 0 0 3) ⟨by decide, not_fits_firstMiss 128 (by norm_num)⟩,
    met _ (wit 0 0 0 0 0 0 23 [(127, 23#8)]) ⟨by decide, fits_small 0 128 (by norm_num), by decide⟩,
    met _ (wit 0 0 0 0 0 0 23) ⟨by decide, fits_small 0 128 (by norm_num), by decide, by decide⟩,
    met _ (wit 0 0 0 0 0 0 23 [(127, 2#8)]) ⟨by decide, fits_small 0 128 (by norm_num), by decide, by decide⟩,
    met _ (wit (firstMiss 1) 0 0 0 0 0 1023 [(126, 0x01#8), (127, 0x41#8)])
      ⟨by decide, fits_small 0 128 (by norm_num), by decide, by decide, by decide, ?_⟩,
    met _ (wit (lastFit 1) 0 0 0 0 0 1023 [(126, 0x01#8), (127, 0x41#8)])
      ⟨by decide, fits_small 0 128 (by norm_num), by decide, by decide, by decide, ?_⟩⟩
  · exact hn.symm ▸ not_fits_firstMiss 1 (by norm_num)
  · exact hn.symm ▸ fits_lastFit 1 (by norm_num)

/-- A command's next state. -/
theorem some_next (i : Instr) (s : State) : ∃ t, exec i s = .next t := ⟨_, exec_eq_complete i s⟩

/-- One message byte under P = 1023, decoded at another offset. -/
theorem witness_DecodeInvertsEncode :
    ∃ (s s' t : State) (f f' : InFlight), s.inflight = some f ∧ GoodModulus f ∧ f.arg3 < 128
      ∧ 2 ^ (8 * f.arg3) + beInt (Memory.readBytes f.snap.buf f.arg1 f.arg3) ≤ (f.modulus - 1) / 2
      ∧ Fits f.arg1 f.arg3 ∧ Fits f.arg0 128 ∧ exec .encode s = .next t
      ∧ s'.inflight = some f' ∧ f'.snap.buf = t.buf ∧ f'.snap.p = f.snap.p ∧ f'.arg1 = f.arg0 ∧ Fits f'.arg0 f.arg3 := by
  obtain ⟨t, ht⟩ := some_next .encode (busyWith (wit 0x100 0 0 1 0 0 1023 [(0, 0x41#8)]))
  exact ⟨_, busyWith (wit 0x200 0x100 0 0 0 0 1023 t.buf), t, wit 0x100 0 0 1 0 0 1023 [(0, 0x41#8)], _, rfl, by decide, by decide, by decide,
    fits_small 0 1 (by norm_num), fits_small 0x100 128 (by norm_num), ht, rfl, rfl, rfl, rfl,
    fits_small 0x200 1 (by norm_num)⟩

/-! ### Key-derivation commands -/

/-- One byte of pad: block 0 alone. -/
theorem witness_PadIsTheHashChain : ∃ (c : Params) (L i : Nat), i * c.hashLen < L := ⟨Config.platform, 1, 0, by simp⟩

theorem witness_PadPrefix : ∃ L1 L2 : Nat, L1 ≤ L2 := ⟨32, 40, by norm_num⟩

theorem witness_KdfResult : Met (fun f => ¬ (Fits f.arg1 f.arg5 ∧ Fits f.arg0 f.arg3))
    ∧ Met (fun f => Fits f.arg1 f.arg5 ∧ Fits f.arg0 f.arg3) :=
  ⟨met _ (wit 0 (firstMiss 1) 0 0 0 1) fun h => not_fits_firstMiss 1 (by norm_num) h.1,
   met _ (wit (lastFit 4) (lastFit 4) 0 4 0 4) ⟨fits_lastFit 4 (by norm_num), fits_lastFit 4 (by norm_num)⟩⟩

theorem witness_KdfxorResult : Met (fun f => ¬ (Fits f.arg1 f.arg5 ∧ Fits f.arg0 f.arg3 ∧ Fits f.arg2 f.arg3))
    ∧ Met (fun f => Fits f.arg1 f.arg5 ∧ Fits f.arg0 f.arg3 ∧ Fits f.arg2 f.arg3) :=
  ⟨met _ (wit 0 0 (firstMiss 4) 4 0 0) fun h => not_fits_firstMiss 4 (by norm_num) h.2.2,
   met _ (wit (lastFit 4) (lastFit 4) (lastFit 4) 4 0 4)
     ⟨fits_lastFit 4 (by norm_num), fits_lastFit 4 (by norm_num), fits_lastFit 4 (by norm_num)⟩⟩

/-- A commit of one string leaves a string clear of it as it was. -/
theorem readBytes_commit_disjoint (s : State) (a x n : Nat) (bs : List Byte) (h : x + n ≤ a ∨ a + bs.length ≤ x) :
    Memory.readBytes (State.commit s (stageBytes a bs)).buf x n = Memory.readBytes s.buf x n :=
  Memory.readBytes_writeBytes_disjoint s.buf a bs x n h

/-- Four bytes at 0x100 under a seed of four bytes at 0, the second time in place. -/
theorem witness_KdfxorTwiceRestores :
    ∃ (s s' t : State) (f f' : InFlight), s.inflight = some f ∧ Fits f.arg1 f.arg5 ∧ Fits f.arg0 f.arg3
      ∧ Fits f.arg2 f.arg3 ∧ exec .kdfxor s = .next t ∧ s'.inflight = some f' ∧ f'.snap.buf = t.buf ∧ f'.arg2 = f.arg0
      ∧ f'.arg3 = f.arg3 ∧ f'.args.a4 = f.args.a4 ∧ f'.arg5 = f.arg5
      ∧ Memory.readBytes t.buf f'.arg1 f'.arg5 = Memory.readBytes f.snap.buf f.arg1 f.arg5
      ∧ Fits f'.arg1 f'.arg5 ∧ Fits f'.arg0 f'.arg3 := by
  have k0 := fits_small 0 4 (by norm_num)
  have k1 := fits_small 0x40 4 (by norm_num)
  have k2 := fits_small 0x100 4 (by norm_num)
  have hb : bodyOf .kdfxor Config.platform (wit 0x100 0 0x40 4 1 4)
      = .ok (stageBytes 0x100 (xorBytes (kdfPad Config.platform 4 1#32 (Memory.readBytes [] 0 4))
          (Memory.readBytes [] 0x40 4))) := by
    have h : (inRange Config.platform 0 4 && inRange Config.platform 0x100 4 && inRange Config.platform 0x40 4) = true := by
      simp only [Bool.and_eq_true, inRange_iff]; exact ⟨⟨k0, k2⟩, k1⟩
    show (require (inRange Config.platform 0 4 && inRange Config.platform 0x100 4 && inRange Config.platform 0x40 4) .bounds
      >>= fun _ => _) = _
    rw [h]; rfl
  obtain ⟨t, ht, hs⟩ : ∃ t, exec .kdfxor (busyWith (wit 0x100 0 0x40 4 1 4)) = .next t
      ∧ Memory.readBytes t.buf 0 4 = Memory.readBytes [] 0 4 :=
    ⟨_, exec_of_ok .kdfxor _ _ _ rfl hb, readBytes_commit_disjoint _ 0x100 0 4 _ (.inl (by norm_num))⟩
  exact ⟨busyWith (wit 0x100 0 0x40 4 1 4), busyWith (wit 0x100 0 0x100 4 1 4 23 t.buf), t, wit 0x100 0 0x40 4 1 4,
    wit 0x100 0 0x100 4 1 4 23 t.buf, rfl, k0, k2, k1, ht, rfl, rfl, rfl, rfl, rfl, rfl, hs, k0, k2⟩

/-! ### Bit-matrix commands -/

/-- Seven rows are no multiple of 8. -/
theorem witness_bad_dims : Met (fun f => ¬ GoodDims f) := met _ (wit 0 0 0 7 8 0) (by decide)

/-- The destination of 8 bytes, and the last column at a stride of 1; no column needs no source (V-BM-21). -/
theorem witness_PackResult : Met (fun f => ¬ GoodDims f)
    ∧ Met (fun f => GoodDims f ∧ ¬ (Fits f.arg0 (f.arg3 * f.arg4 / 8)
        ∧ (0 < f.arg4 → Fits (f.arg1 + (f.arg4 - 1) * f.arg5) (f.arg3 / 8))))
    ∧ Met (fun f => GoodDims f ∧ Fits f.arg0 (f.arg3 * f.arg4 / 8)
        ∧ (0 < f.arg4 → Fits (f.arg1 + (f.arg4 - 1) * f.arg5) (f.arg3 / 8)) ∧ 0 < f.arg4)
    ∧ Met (fun f => GoodDims f ∧ Fits f.arg0 (f.arg3 * f.arg4 / 8)
        ∧ (0 < f.arg4 → Fits (f.arg1 + (f.arg4 - 1) * f.arg5) (f.arg3 / 8)) ∧ f.arg4 = 0) :=
  ⟨witness_bad_dims,
   met _ (wit (firstMiss 8) 0 0 8 8 1) ⟨by decide, fun h => not_fits_firstMiss 8 (by norm_num) h.1⟩,
   met _ (wit (lastFit 8) (lastFit 1) 0 8 8 0)
     ⟨by decide, fits_lastFit 8 (by norm_num), fun _ => fits_lastFit 1 (by norm_num), by decide⟩,
   met _ (wit (lastFit 0) 0xFFFFFFFF 0 8 0 5)
     ⟨by decide, fits_lastFit 0 (by norm_num), fun h => absurd h (by decide), by decide⟩⟩

theorem witness_TransposeResult : Met (fun f => ¬ GoodDims f)
    ∧ Met (fun f => GoodDims f ∧ ¬ Fits f.arg0 (f.arg3 * f.arg4 / 8))
    ∧ Met (fun f => GoodDims f ∧ Fits f.arg0 (f.arg3 * f.arg4 / 8)) :=
  ⟨witness_bad_dims, met _ (wit (firstMiss 8) 0 0 8 8 0) ⟨by decide, not_fits_firstMiss 8 (by norm_num)⟩,
   met _ (wit (lastFit 8) 0 0 8 8 0) ⟨by decide, fits_lastFit 8 (by norm_num)⟩⟩

theorem witness_TransposeTwiceRestores :
    ∃ (s s' t : State) (f f' : InFlight), s.inflight = some f ∧ GoodDims f ∧ Fits f.arg0 (f.arg3 * f.arg4 / 8)
      ∧ exec .transpose s = .next t ∧ s'.inflight = some f' ∧ f'.snap.buf = t.buf ∧ s'.buf = t.buf
      ∧ f'.arg0 = f.arg0 ∧ f'.arg3 = f.arg4 ∧ f'.arg4 = f.arg3 := by
  obtain ⟨t, ht⟩ := some_next .transpose (busyWith (wit (lastFit 16) 0 0 16 8 0 23 [(3, 7#8)]))
  exact ⟨_, busyWith (wit (lastFit 16) 0 0 8 16 0 23 t.buf), t, wit (lastFit 16) 0 0 16 8 0 23 [(3, 7#8)], _, rfl, by decide, fits_lastFit 16 (by norm_num), ht,
    rfl, rfl, rfl, rfl, rfl, rfl⟩

theorem witness_MatxorResult : Met (fun f => ¬ GoodDims f)
    ∧ Met (fun f => GoodDims f ∧ ¬ (Fits f.arg0 (f.arg3 * f.arg4 / 8) ∧ Fits f.arg1 (f.arg3 / 8)))
    ∧ Met (fun f => GoodDims f ∧ Fits f.arg0 (f.arg3 * f.arg4 / 8) ∧ Fits f.arg1 (f.arg3 / 8)) :=
  ⟨witness_bad_dims,
   met _ (wit 0 (firstMiss 2) 0 16 8 0) ⟨by decide, fun h => not_fits_firstMiss 2 (by norm_num) h.2⟩,
   met _ (wit (lastFit 16) (lastFit 2) 0 16 8 0)
     ⟨by decide, fits_lastFit 16 (by norm_num), fits_lastFit 2 (by norm_num)⟩⟩

/-- A matrix at 0 and a vector at 0x100, clear of it. -/
theorem witness_MatxorTwiceRestores :
    ∃ (s s' t : State) (f f' : InFlight), s.inflight = some f ∧ GoodDims f ∧ Fits f.arg0 (f.arg3 * f.arg4 / 8)
      ∧ Fits f.arg1 (f.arg3 / 8) ∧ exec .matxor s = .next t ∧ s'.inflight = some f' ∧ f'.snap.buf = t.buf
      ∧ f'.arg0 = f.arg0 ∧ f'.arg3 = f.arg3 ∧ f'.arg4 = f.arg4 ∧ Fits f'.arg1 (f.arg3 / 8)
      ∧ Memory.readBytes t.buf f'.arg1 (f.arg3 / 8) = Memory.readBytes f.snap.buf f.arg1 (f.arg3 / 8) := by
  have k0 := fits_small 0 16 (by norm_num)
  have k1 := fits_small 0x100 2 (by norm_num)
  have hb : bodyOf .matxor Config.platform (wit 0 0x100 0 16 8 0)
      = .ok (stageBytes 0 (xorColumns 8 2 (Memory.readBytes [] 0 16) (Memory.readBytes [] 0x100 2))) := by
    have h : (inRange Config.platform 0 16 && inRange Config.platform 0x100 2) = true := by
      simp only [Bool.and_eq_true, inRange_iff]; exact ⟨k0, k1⟩
    show (require (inRange Config.platform 0 16 && inRange Config.platform 0x100 2) .bounds >>= fun _ => _) = _
    rw [h]; rfl
  obtain ⟨t, ht, hs⟩ : ∃ t, exec .matxor (busyWith (wit 0 0x100 0 16 8 0)) = .next t
      ∧ Memory.readBytes t.buf 0x100 2 = Memory.readBytes [] 0x100 2 :=
    ⟨_, exec_of_ok .matxor _ _ _ rfl hb, readBytes_commit_disjoint _ 0 0x100 2 _ (.inr (by decide))⟩
  exact ⟨busyWith (wit 0 0x100 0 16 8 0), busyWith (wit 0 0x100 0 16 8 0 23 t.buf), t, wit 0 0x100 0 16 8 0,
    wit 0 0x100 0 16 8 0 23 t.buf, rfl, ⟨rfl, rfl⟩, k0, k1, ht, rfl, rfl, rfl, rfl, rfl, k1, hs⟩

end Sys2Proof.Tests
end

/-! # The state and its registers (10_state.md)

The proofs of the statements about the invariant of the state, the registers of the window and the parameter registers.
Each rests on what Laws/ says an operation, a host access or a step can do. -/

namespace Sys2Proof.Machine

/-! ### The invariant, operation by operation -/

section Invariant

variable {s : State}

theorem State.reset_inv : State.Inv State.reset where
  bufWf := rfl
  bufWithin := rfl
  doneErr := by simp [State.reset]
  errcodeZero := fun _ => rfl
  errcodeKnown := by simp [State.reset]
  resultSmall := by simp [State.reset]
  flight := by simp [State.reset]

/-- The invariant does not read what the host alone sets (IRQ_EN, OVR, ARG0 to ARG5), the interleaving or the reply. -/
theorem State.Inv.withHostFields (h : State.Inv s) (irqEn ovr : Bool) (args : Args) (pending : List Event)
    (reply : Option Word) :
    State.Inv { s with irqEn := irqEn, ovr := ovr, args := args, pending := pending, reply := reply } where
  bufWf := h.bufWf
  bufWithin := h.bufWithin
  doneErr := h.doneErr
  errcodeZero := h.errcodeZero
  errcodeKnown := h.errcodeKnown
  resultSmall := h.resultSmall
  flight := h.flight

theorem State.Inv.withPending (h : State.Inv s) (pending : List Event) : State.Inv { s with pending := pending } :=
  h.withHostFields s.irqEn s.ovr s.args pending s.reply

theorem State.Inv.withReply (h : State.Inv s) (reply : Option Word) : State.Inv { s with reply := reply } :=
  h.withHostFields s.irqEn s.ovr s.args s.pending reply

theorem State.softReset_inv (s : State) : State.Inv (State.softReset s) :=
  State.reset_inv.withHostFields _ _ _ s.pending s.reply

/-- The host's acknowledgement: ERR and ERRCODE are cleared together (10_state.md R20). -/
theorem State.Inv.statusWrite (h : State.Inv s) (v : Word) : State.Inv (State.statusWrite s v) where
  bufWf := h.bufWf
  bufWithin := h.bufWithin
  doneErr := by
    have := h.doneErr
    simp only [State.statusWrite_done, State.statusWrite_err, Bool.and_eq_true]
    tauto
  errcodeZero := by
    simp only [State.statusWrite_err, State.statusWrite_errcode]
    cases v.getLsbD 2
    case false => simpa using h.errcodeZero
    case true => simp
  errcodeKnown := by
    simp only [State.statusWrite_err, State.statusWrite_errcode]
    cases v.getLsbD 2
    case false => simpa using h.errcodeKnown
    case true => simp
  resultSmall := by
    obtain ⟨hle, hzero⟩ := h.resultSmall
    exact ⟨hle, fun he => hzero (Bool.and_eq_true_iff.1 he).1⟩
  flight := fun f hf => by
    obtain ⟨hw, hsnap, hdone, herr, hres⟩ := h.flight f hf
    exact ⟨hw, hsnap, by simp [hdone], by simp [herr], hres⟩

/-- Accept takes the snapshot of Buf, P, Q and G as they stand (60_exceptions.md R117). -/
theorem State.Inv.accept (h : State.Inv s) (w : Word) : State.Inv (State.accept s w) where
  bufWf := h.bufWf
  bufWithin := h.bufWithin
  doneErr := by simp
  errcodeZero := fun _ => rfl
  errcodeKnown := by simp
  resultSmall := by simp
  flight := by
    intro f hf
    cases hf
    exact ⟨rfl, rfl, rfl, rfl, rfl⟩

/-- The codes produced are 1 to 8 (60_exceptions.md R115). -/
theorem errCodeBits_range (e : ErrCode) : 1 ≤ (errCodeBits e).toNat ∧ (errCodeBits e).toNat ≤ 8 := by
  cases e <;> decide

/-- A command ends with an error: DONE and RESULT are 0 because a command was in flight. -/
theorem State.Inv.fail (h : State.Inv s) {f : InFlight} (hf : s.inflight = some f) (e : ErrCode) :
    State.Inv (State.fail s e) := by
  obtain ⟨-, -, hdone, -, hres⟩ := h.flight f hf
  exact {
    bufWf := h.bufWf
    bufWithin := h.bufWithin
    doneErr := by simp [hdone]
    errcodeZero := by simp
    errcodeKnown := fun _ => errCodeBits_range e
    resultSmall := by simp [hres]
    flight := by simp }

/-- A command ends without error: ERR is 0 because a command was in flight. -/
theorem State.Inv.commit (h : State.Inv s) {f : InFlight} (hf : s.inflight = some f) (st : Staged)
    (hwrites : ∀ w ∈ st.writes, w.1 + w.2.length ≤ Config.platform.bufSize) (hres : st.result.toNat ≤ 127) :
    State.Inv (State.commit s st) := by
  obtain ⟨-, -, -, herr, -⟩ := h.flight f hf
  exact {
    bufWf := Memory.wf_writeAll _ _ h.bufWf
    bufWithin := Memory.within_writeAll _ _ _ h.bufWithin hwrites
    doneErr := by simp [herr]
    errcodeZero := h.errcodeZero
    errcodeKnown := h.errcodeKnown
    resultSmall := ⟨hres, by simp [herr]⟩
    flight := by simp }

/-- A host's write to the buffer while IDLE: no snapshot has to agree with the new buffer. -/
theorem State.Inv.writeBuffer (h : State.Inv s) (hidle : s.inflight = none) (a : Nat) (bs : List Byte)
    (hfits : a + bs.length ≤ Config.platform.bufSize) :
    State.Inv { s with buf := Memory.writeBytes s.buf a bs } where
  bufWf := Memory.wf_writeBytes _ _ _ h.bufWf
  bufWithin := Memory.within_writeBytes _ _ _ _ h.bufWithin hfits
  doneErr := h.doneErr
  errcodeZero := h.errcodeZero
  errcodeKnown := h.errcodeKnown
  resultSmall := h.resultSmall
  flight := by simp [hidle]

/-! ### The invariant over a register write, a host access, the engine's step and a step -/

theorem State.Inv.writeReg (h : State.Inv s) (r : Reg) (v : Word) : State.Inv (writeReg s r v) := by
  rcases writeReg_cases s r v with e | ⟨b, e⟩ | e | ⟨-, e⟩ | ⟨f, -, e⟩ | ⟨x, e⟩ | e <;> rw [e]
  · exact State.softReset_inv s
  · exact h.withHostFields b s.ovr s.args s.pending s.reply
  · exact h.statusWrite v
  · exact h.accept v
  · exact h.withHostFields s.irqEn true s.args s.pending s.reply
  · exact h.withHostFields s.irqEn s.ovr x s.pending s.reply
  · exact h

theorem State.Inv.hostAccess {t : State} (h : State.Inv s) (op : HostOp)
    (hstep : hostAccess Config.platform op s = .next t) : State.Inv t := by
  rcases hostAccess_next _ op s t hstep with ⟨w, rfl⟩ | ⟨r, v, rfl⟩ | ⟨hidle, a, bs, hfits, rfl⟩ | rfl
  · exact h.withReply (some w)
  · exact h.writeReg r v
  · exact h.writeBuffer hidle a bs hfits
  · exact h

theorem State.Inv.engineStep {t : State} (h : State.Inv s) (hstep : engineStep s = .next t) : State.Inv t := by
  rcases engineStep_cases s with ⟨-, e⟩ | ⟨f, code, hf, e⟩ | ⟨f, i, st, hf, -, hbody, e⟩ <;> rw [e] at hstep <;>
    cases hstep
  · exact h
  · exact h.fail hf code
  · exact h.commit hf st (bodyOf_within i _ f st hbody) (bodyOf_result_le i _ f st hbody)

theorem State.Inv.step {t : State} (h : State.Inv s) (hstep : step s = .next t) : State.Inv t := by
  rcases step_next s t hstep with ⟨-, e⟩ | ⟨rest, -, e⟩ | ⟨op, rest, -, e⟩ | ⟨rest, -, rfl⟩
  · exact h.engineStep e
  · exact (h.withPending rest).engineStep e
  · exact (h.withPending rest).hostAccess op e
  · exact State.softReset_inv _

end Invariant

/-- Settles O24: the invariant is carried through each of the things a step can do. -/
theorem stepKeepsTheInvariant : Obligations.StepKeepsTheInvariant :=
  fun _ _ hinv hstep => hinv.step hstep

/-! ### What a command commits -/

/-- A command writes no argument register (10_state.md R22). -/
theorem exec_args {i : Instr} {s t : State} (h : exec i s = .next t) : t.args = s.args := by
  rcases exec_cases i s with ⟨-, e⟩ | ⟨f, code, -, -, e⟩ | ⟨f, st, -, -, e⟩ <;> rw [e] at h <;> cases h <;> rfl

/-- Settles O13: both states end by the one answer that the command's pseudocode gives for the record. -/
theorem commandsAreFunctionsOfTheRecord : Obligations.CommandsAreFunctionsOfTheRecord := by
  intro i s s' t t' f hf hf' hbuf hp hq hg herr herr' hres ht ht'
  rcases hbody : bodyOf i Config.platform f with e | st
  case error =>
    rw [exec_of_error i s f e hf hbody] at ht
    rw [exec_of_error i s' f e hf' hbody] at ht'
    cases ht; cases ht'
    simp [hbuf, hp, hq, hg, hres]
  case ok =>
    rw [exec_of_ok i s f st hf hbody] at ht
    rw [exec_of_ok i s' f st hf' hbody] at ht'
    cases ht; cases ht'
    simp [hbuf, hp, hq, hg, herr, herr']

/-! ### Who writes P, Q and G -/

/-- P holds of what the pseudocode stages, unless it raises an error. -/
def Answers (P : Staged → Prop) (body : Body) : Prop := ∀ st, body = .ok st → P st

@[simp] theorem answers_ok (P : Staged → Prop) (st : Staged) : Answers P (.ok st) ↔ P st := by
  simp [Answers]

@[simp] theorem answers_error (P : Staged → Prop) (e : ErrCode) : Answers P (.error e) ↔ True := by
  simp [Answers]

@[simp] theorem answers_require_bind (P : Staged → Prop) (b : Bool) (e : ErrCode) (k : Unit → Body) :
    Answers P (require b e >>= k) ↔ (b = true → Answers P (k ())) := by
  cases b <;> simp

@[simp] theorem answers_checkModulus_bind (P : Staged → Prop) (f : InFlight) (k : Nat → Body) :
    Answers P (checkModulus f >>= k) ↔ (GoodModulus f → Answers P (k f.modulus)) := by
  rw [checkModulus_eq]
  split <;> simp_all

@[simp] theorem answers_checkDims_bind (P : Staged → Prop) (f : InFlight) (k : Nat × Nat → Body) :
    Answers P (checkDims f >>= k) ↔ (GoodDims f → Answers P (k (f.arg3, f.arg4))) := by
  rw [checkDims_eq]
  split <;> simp_all

/-- Of P, Q and G a command stages at most the one it loads (10_state.md R29 to R31). -/
structure StagesOnlyItsParameter (i : Instr) (st : Staged) : Prop where
  p : st.p ≠ none → i = .ldp
  q : st.q ≠ none → i = .ldq
  g : st.g ≠ none → i = .ldg

/-- A result that stages neither P, Q nor G suits every command. -/
theorem stagesOnlyItsParameter_of_none (i : Instr) (writes : List (Nat × List Byte)) (result : Word) :
    StagesOnlyItsParameter i { writes := writes, result := result } :=
  ⟨nofun, nofun, nofun⟩

theorem bodyOf_stagesOnlyItsParameter (i : Instr) (c : Params) (f : InFlight) :
    Answers (StagesOnlyItsParameter i) (bodyOf i c f) := by
  cases i
  case ldp =>
    simp only [bodyOf, runLdp, answers_require_bind, pure_ok, answers_ok]
    exact fun _ => ⟨fun _ => rfl, nofun, nofun⟩
  case ldq =>
    simp only [bodyOf, runLdq, answers_require_bind, pure_ok, answers_ok]
    exact fun _ => ⟨nofun, fun _ => rfl, nofun⟩
  case ldg =>
    simp only [bodyOf, runLdg, answers_require_bind, pure_ok, answers_ok]
    exact fun _ => ⟨nofun, nofun, fun _ => rfl⟩
  all_goals
    simp [bodyOf, runNop, runStp, runStq, runStg, runClr, runModexp, runModexpg, runModmul, runModinv, runQrtest,
      runGentest, runParamchk, runEncode, runDecode, decodeFolded, runKdf, runKdfxor, runPack, runTranspose, runMatxor,
      stageElem, stageBytes, stageTest, stageResult, stagesOnlyItsParameter_of_none]

/-- A word that decodes to a command is the command's own (30_encoding.md R64, R70). -/
theorem eq_encode_of_decode {w : Word} {i : Instr} (h : decode w = .ok i) : w = encode i := by
  have hrows : ∀ row ∈ opcodeTable, row.1 = encode row.2 := by decide
  unfold decode at h
  split at h
  · rename_i j hj
    cases h
    obtain ⟨l₁, l₂, htable, -⟩ := List.lookup_eq_some_iff.1 hj
    exact hrows (w, i) (by simp [htable])
  · split at h <;> cases h

/-- P, Q and G change over the engine's step only when the word latched is that of the command that loads them. -/
theorem engineStep_params {s t : State} (h : engineStep s = .next t) :
    (t.p ≠ s.p → ∃ f, s.inflight = some f ∧ f.word = 0x00000001#32)
    ∧ (t.q ≠ s.q → ∃ f, s.inflight = some f ∧ f.word = 0x00000002#32)
    ∧ (t.g ≠ s.g → ∃ f, s.inflight = some f ∧ f.word = 0x00000003#32) := by
  rcases engineStep_cases s with ⟨-, e⟩ | ⟨f, code, -, e⟩ | ⟨f, i, st, hf, hdec, hbody, e⟩ <;> rw [e] at h <;>
    cases h
  · simp
  · simp
  · have hword := eq_encode_of_decode hdec
    obtain ⟨hp, hq, hg⟩ := bodyOf_stagesOnlyItsParameter i _ f st hbody
    refine ⟨fun hne => ⟨f, hf, ?_⟩, fun hne => ⟨f, hf, ?_⟩, fun hne => ⟨f, hf, ?_⟩⟩
    · obtain rfl := hp fun hnone => hne (by simp [hnone])
      exact hword
    · obtain rfl := hq fun hnone => hne (by simp [hnone])
      exact hword
    · obtain rfl := hg fun hnone => hne (by simp [hnone])
      exact hword

/-- P, Q and G change over a register write only when it is a soft reset. -/
theorem writeReg_params (s : State) (r : Reg) (v : Word) :
    (r = .ctrl ∧ v.getLsbD 1 = true) ∨ ParamsKept s (writeReg s r v) := by
  cases r
  case ctrl =>
    rcases State.ctrlWrite_cases s v with ⟨hv, -⟩ | ⟨-, e⟩
    · exact .inl ⟨rfl, hv⟩
    · exact .inr (by rw [writeReg, e]; exact ⟨rfl, rfl, rfl⟩)
  case cmd =>
    rcases State.cmdWrite_cases s v with ⟨f, -, e⟩ | ⟨-, e⟩ <;>
      exact .inr (by rw [writeReg, e]; exact ⟨rfl, rfl, rfl⟩)
  all_goals exact .inr ⟨rfl, rfl, rfl⟩

/-- Settles O16, by what a step can do: only a reset and the engine's step write P, Q or G. -/
theorem parametersChangeOnlyByLoadOrReset : Obligations.ParametersChangeOnlyByLoadOrReset := by
  intro s t hstep
  rcases step_cases s t hstep with ⟨rest, hpow, -⟩ | ⟨off, v, rest, h4, hlt, hw, rfl⟩ | ⟨rest, hnext, he⟩
    | ⟨rest, x, rfl⟩ | ⟨rest, m, -, rfl⟩
  · exact .inl ⟨rest, .inl hpow⟩
  · rcases writeReg_params { s with pending := rest } (regAt off) v with ⟨hr, hv⟩ | hkept
    · obtain rfl := offset_of_regAt off h4 hlt .ctrl hr (by decide)
      exact .inl ⟨rest, .inr ⟨v, hw, hv⟩⟩
    · exact .inr ⟨fun h => absurd hkept.p h, fun h => absurd hkept.q h, fun h => absurd hkept.g h⟩
  · obtain ⟨hp, hq, hg⟩ := engineStep_params he
    exact .inr ⟨fun h => (hp h).imp fun _ hf => ⟨rest, hnext, hf⟩, fun h => (hq h).imp fun _ hf => ⟨rest, hnext, hf⟩,
      fun h => (hg h).imp fun _ hf => ⟨rest, hnext, hf⟩⟩
  · exact .inr (by simp)
  · exact .inr (by simp)

/-! ### The registers of the window, as a step reads and writes them -/

/-- The host's read of a named register is next. A register's value does not depend on the interleaving. -/
theorem step_of_hostReads_reg {s : State} {off : Nat} {rest : List Event} (h : HostReads s off rest) (r : Reg)
    (hr : regAt off = r) (h4 : off % 4 = 0) (hlt : off < 256) :
    step s = .next { s with pending := rest, reply := some (readReg Config.platform s r) } := by
  subst hr
  rw [step_of_hostReads s off rest h h4 hlt]
  cases regAt off <;> rfl

/-- The host's write of a named register is next. -/
theorem step_of_hostWrites_reg {s : State} {off : Nat} {v : Word} {rest : List Event} (h : HostWrites s off v rest)
    (r : Reg) (hr : regAt off = r) (h4 : off % 4 = 0) (hlt : off < 256) :
    step s = .next (writeReg { s with pending := rest } r v) := by
  subst hr
  exact step_of_hostWrites s off v rest h h4 hlt

/-! ### CMD -/

theorem State.cmdWrite_idle {s : State} (h : s.inflight = none) (w : Word) :
    State.cmdWrite s w = State.accept s w := by
  simp [State.cmdWrite, State.busy, h]

theorem State.cmdWrite_inflight {s : State} {f : InFlight} (h : s.inflight = some f) (w : Word) :
    State.cmdWrite s w = { s with ovr := true } := by
  simp [State.cmdWrite, State.busy, h]

/-- A write of CMD while IDLE is an accept (60_exceptions.md R117). -/
theorem step_cmdWrite_idle {s : State} {w : Word} {rest : List Event} (h : HostWrites s 0x10 w rest)
    (hidle : s.inflight = none) : step s = .next (State.accept { s with pending := rest } w) := by
  rw [step_of_hostWrites_reg h .cmd rfl (by decide) (by decide), writeReg,
    State.cmdWrite_idle (s := { s with pending := rest }) hidle]

/-- Settles O7: a write of CMD is an accept or sets OVR, by the phase. -/
theorem cmdRegisterBehaves : Obligations.CmdRegisterBehaves := by
  intro s rest
  refine ⟨fun w hw hidle => ?_, fun w f hw hbusy => ?_, fun hr => ?_, rfl⟩
  · exact ⟨_, step_cmdWrite_idle hw hidle, rfl, ⟨_, rfl, rfl⟩, rfl⟩
  · rw [step_of_hostWrites_reg hw .cmd rfl (by decide) (by decide), writeReg,
      State.cmdWrite_inflight (s := { s with pending := rest }) hbusy]
  · exact step_of_hostReads_reg hr .cmd rfl (by decide) (by decide)

/-! ### CTRL -/

theorem State.ctrlWord_eq (s : State) : State.ctrlWord s = if s.irqEn then 1#32 else 0#32 := by
  unfold State.ctrlWord
  cases s.irqEn <;> decide

/-- Settles O17, by the two things a write to CTRL can do. -/
theorem ctrlRegisterBehaves : Obligations.CtrlRegisterBehaves := by
  intro s rest
  refine ⟨fun hr => ?_, fun v hw hv => ?_, fun v hw hv => ?_⟩
  · rw [step_of_hostReads_reg hr .ctrl rfl (by decide) (by decide), readReg, State.ctrlWord_eq]
  · rw [step_of_hostWrites_reg hw .ctrl rfl (by decide) (by decide), writeReg, State.ctrlWrite, hv]
    rfl
  · refine ⟨_, step_of_hostWrites_reg hw .ctrl rfl (by decide) (by decide), ?_⟩
    rw [writeReg, State.ctrlWrite, hv]
    rfl

/-! ### STATUS -/

/-- The value of two fields side by side. -/
theorem toNat_append_eq_add {m n : Nat} (x : BitVec m) (y : BitVec n) :
    (x ++ y).toNat = x.toNat * 2 ^ n + y.toNat := by
  rw [BitVec.toNat_append, ← Nat.shiftLeft_add_eq_or_of_lt y.isLt, Nat.shiftLeft_eq]

/-- The STATUS word as the sum of its fields (10_state.md R20). -/
theorem State.toNat_statusWord (s : State) :
    (State.statusWord s).toNat = s.inflight.isSome.toNat + 2 * s.done.toNat + 4 * s.err.toNat + 8 * s.ovr.toNat
      + 256 * s.errcode.toNat := by
  simp only [State.statusWord, State.busy, toNat_append_eq_add, BitVec.toNat_ofBool, BitVec.toNat_ofNat]
  omega

theorem State.statusWrite_eq (s : State) (v : Word) :
    State.statusWrite s v =
      { s with
        done := if v.getLsbD 1 then false else s.done
        err := if v.getLsbD 2 then false else s.err
        errcode := if v.getLsbD 2 then 0x00#8 else s.errcode
        ovr := if v.getLsbD 3 then false else s.ovr } := by
  have hclear : ∀ x b : Bool, (x && !b) = if b then false else x := by decide
  simp only [State.statusWrite, hclear]

/-- Settles O18: the word is the sum of its fields, and a write clears a flag whose bit is 1. -/
theorem statusRegisterBehaves : Obligations.StatusRegisterBehaves := by
  intro s rest
  refine ⟨fun hr => ?_, fun v hw => ?_⟩
  · exact ⟨_, step_of_hostReads_reg hr .status rfl (by decide) (by decide), State.toNat_statusWord s⟩
  · rw [step_of_hostWrites_reg hw .status rfl (by decide) (by decide), writeReg, State.statusWrite_eq]

/-! ### The read-only and reserved slots -/

theorem regAt_reserved {off : Nat} (h : 0x3C ≤ off) : regAt off = .reserved := by
  unfold regAt
  split
  case h_16 => rfl
  all_goals omega

/-- The registers of the window that a write leaves alone (10_state.md R17, R18, R23 to R27). -/
def readOnlyRegs : List Reg := [.id, .version, .result, .cmdcnt, .bufsize, .hashlen, .reserved]

theorem writeReg_readOnly {r : Reg} (h : r ∈ readOnlyRegs) (s : State) (v : Word) : writeReg s r v = s := by
  fin_cases h <;> rfl

theorem regAt_mem_readOnlyRegs {off : Nat}
    (h : off ∈ [0x00, 0x04, 0x2C, 0x30, 0x34, 0x38] ∨ (0x3C ≤ off ∧ off ≤ 0xFC)) : regAt off ∈ readOnlyRegs := by
  rcases h with hnamed | ⟨hres, -⟩
  · revert off
    decide
  · rw [regAt_reserved hres]
    decide

/-- Settles O19: BUF_SIZE and HASH_LEN fit in a word, so each reads as its value. -/
theorem readOnlyRegistersBehave : Obligations.ReadOnlyRegistersBehave := by
  intro s rest
  refine ⟨fun h => ?_, fun h => ?_, fun h => ?_, fun h => ?_, fun h => ?_, fun h => ?_, fun off h4 hlo hhi h => ?_,
    fun off v h4 hoff h => ?_⟩
  · exact step_of_hostReads_reg h .id rfl (by decide) (by decide)
  · exact step_of_hostReads_reg h .version rfl (by decide) (by decide)
  · refine ⟨_, step_of_hostReads_reg h .bufsize rfl (by decide) (by decide), ?_⟩
    have := Params.bufSize_le Config.platform
    simp only [readReg, BitVec.toNat_ofNat]
    omega
  · refine ⟨_, step_of_hostReads_reg h .hashlen rfl (by decide) (by decide), ?_⟩
    have := Params.hashLen_le Config.platform
    simp only [readReg, BitVec.toNat_ofNat]
    omega
  · exact step_of_hostReads_reg h .result rfl (by decide) (by decide)
  · exact step_of_hostReads_reg h .cmdcnt rfl (by decide) (by decide)
  · exact step_of_hostReads_reg h .reserved (regAt_reserved hlo) h4 (by omega)
  · have hlt : off < 256 := by
      simp only [List.mem_cons, List.not_mem_nil, or_false] at hoff
      omega
    rw [step_of_hostWrites_reg h _ rfl h4 hlt, writeReg_readOnly (regAt_mem_readOnlyRegs hoff)]

/-! ### ARG0 to ARG5 -/

/-- The arguments with one of them replaced. -/
def Args.set (x : Args) (a : ArgName) (v : Word) : Args :=
  match a with
  | .arg0 => { x with a0 := v }
  | .arg1 => { x with a1 := v }
  | .arg2 => { x with a2 := v }
  | .arg3 => { x with a3 := v }
  | .arg4 => { x with a4 := v }
  | .arg5 => { x with a5 := v }

theorem argValue_set (x : Args) (a b : ArgName) (v : Word) :
    argValue (x.set a v) b = if b = a then v else argValue x b := by
  cases a <;> cases b <;> rfl

@[simp] theorem regAt_argOffset (a : ArgName) : regAt (argOffset a) = argReg a := by
  cases a <;> rfl

theorem argOffset_aligned (a : ArgName) : argOffset a % 4 = 0 := by
  cases a <;> rfl

theorem argOffset_lt (a : ArgName) : argOffset a < 256 := by
  cases a <;> decide

@[simp] theorem readReg_argReg (c : Params) (s : State) (a : ArgName) : readReg c s (argReg a) = argValue s.args a := by
  cases a <;> rfl

@[simp] theorem writeReg_argReg (s : State) (a : ArgName) (v : Word) :
    writeReg s (argReg a) v = { s with args := s.args.set a v } := by
  cases a <;> rfl

/-- Settles O20: a register write touches one argument alone, and accept latches all six. -/
theorem argumentRegistersBehave : Obligations.ArgumentRegistersBehave := by
  intro s rest a
  refine ⟨fun v hw => ?_, fun hr => ?_, fun i t ht => ?_, fun w hw hidle => ?_, ?_⟩
  · refine ⟨s.args.set a v, ?_, by simp [argValue_set], fun b hb => by simp [argValue_set, hb]⟩
    rw [step_of_hostWrites_reg hw _ (regAt_argOffset a) (argOffset_aligned a) (argOffset_lt a), writeReg_argReg]
  · rw [step_of_hostReads_reg hr _ (regAt_argOffset a) (argOffset_aligned a) (argOffset_lt a), readReg_argReg]
  · rw [exec_args ht]
  · exact ⟨_, _, step_cmdWrite_idle hw hidle, rfl, rfl⟩
  · cases a <;> rfl

end Sys2Proof.Machine

/-! # The host's accesses of the memory map (20_memory.md)

The proofs of the statements about the buffer window and about host reads. An access named by its address is first
brought to the buffer access it stands for; what that access does is then said once for both forms. -/

namespace Sys2Proof.Machine

/-- The host's access is next. -/
theorem step_of_host {s : State} {op : HostOp} {rest : List Event} (h : s.pending = .host op :: rest) :
    step s = hostAccess Config.platform op { s with pending := rest } := by
  unfold step
  rw [h]

/-! ### Which host accesses are buffer accesses -/

section BufferWindow

variable {c : Params} {off width : Nat}

/-- An access by address of a shape the buffer window takes reaches that window (20_memory.md R45, R46). -/
theorem route_of_bufferShape (hshape : bufferShape c.bufSize off width = true) :
    route c (c.bufBase + off) width = .buffer off := by
  obtain ⟨hlt, hclear⟩ := touches_reg_of_bufferShape c off width hshape
  exact route_of_buffer c off width hlt hclear

/-- Both forms of a buffer read are the one read of the window. -/
theorem hostAccess_bufferRead {op : HostOp} (hop : op = .read (c.bufBase + off) width ∨ op = .readBuf off width)
    (hshape : bufferShape c.bufSize off width = true) (s : State) :
    hostAccess c op s = bufferRead c off width s := by
  rcases hop with rfl | rfl
  · simp only [hostAccess, hostRead, route_of_bufferShape hshape]
  · rfl

/-- Both forms of a buffer write are the one write of the window. -/
theorem hostAccess_bufferWrite {op : HostOp} {v : Word}
    (hop : op = .write (c.bufBase + off) width v ∨ op = .writeBuf off width v)
    (hshape : bufferShape c.bufSize off width = true) (s : State) :
    hostAccess c op s = bufferWrite c off width v s := by
  rcases hop with rfl | rfl
  · simp only [hostAccess, hostWrite, route_of_bufferShape hshape]
  · rfl

/-! ### What a buffer access does while IDLE -/

theorem bufferRead_idle {s : State} (hshape : bufferShape c.bufSize off width = true) (hidle : s.inflight = none) :
    bufferRead c off width s = .next { s with reply := some (laneWord (Memory.readBytes s.buf off width)) } := by
  obtain ⟨-, -, h⟩ := (bufferRead_cases c off width s).resolve_left fun hfault => hfault.1 ⟨hshape, hidle⟩
  exact h

theorem bufferWrite_idle {s : State} (v : Word) (hshape : bufferShape c.bufSize off width = true)
    (hidle : s.inflight = none) :
    bufferWrite c off width v s = .next { s with buf := Memory.writeBytes s.buf off (laneBytes width v) } := by
  obtain ⟨-, -, h⟩ := (bufferWrite_cases c off width v s).resolve_left fun hfault => hfault.1 ⟨hshape, hidle⟩
  exact h

end BufferWindow

/-! ### The bytes of a buffer access -/

/-- Lane k of a buffer read is the byte at offset off + k (20_memory.md R46). -/
theorem lane_of_readBytes (m : Memory) (off : Nat) {n k : Nat} (hn : n = 1 ∨ n = 2 ∨ n = 4) (hk : k < n) :
    (laneWord (Memory.readBytes m off n)).extractLsb' (8 * k) 8 = Memory.read m (off + k) := by
  obtain ⟨-, hlanes⟩ := laneWord_lanes (Memory.readBytes m off n) n hn (Memory.length_readBytes m off n)
  rw [hlanes k hk, ← read_of_readBytes m off n k _ rfl hk]

/-- A buffer write stores lane k at offset off + k (20_memory.md R46). -/
theorem read_writeBytes_laneBytes (m : Memory) (off : Nat) (v : Word) {n k : Nat} (hk : k < n) :
    Memory.read (Memory.writeBytes m off (laneBytes n v)) (off + k) = v.extractLsb' (8 * k) 8 := by
  rw [Memory.read_writeBytes_inside m off _ k (by simpa using hk)]
  simp [laneBytes]

/-- Settles O21: both forms of an access are one buffer access, which while IDLE has no fault to raise. -/
theorem hostBufferAccess : Obligations.HostBufferAccess := by
  intro s rest op off n hidle hn halign hfits hnext
  have hshape : bufferShape Config.platform.bufSize off n = true := (bufferShape_iff _ _ _).2 ⟨hn, halign, hfits⟩
  rw [step_of_host hnext]
  refine ⟨fun hop => ?_, fun v hop => ?_⟩
  · rw [hostAccess_bufferRead hop hshape, bufferRead_idle (s := { s with pending := rest }) hshape hidle]
    exact ⟨_, rfl, fun k hk => lane_of_readBytes s.buf off hn hk⟩
  · rw [hostAccess_bufferWrite hop hshape, bufferWrite_idle (s := { s with pending := rest }) v hshape hidle]
    refine ⟨_, rfl, fun k hk => read_writeBytes_laneBytes s.buf off v hk, fun x hx => ?_⟩
    exact Memory.read_writeBytes_outside s.buf off _ x (by simpa using hx)

/-! ### A host read changes the reply alone -/

theorem bufferRead_next {c : Params} {off width : Nat} {s t : State} (h : bufferRead c off width s = .next t) :
    t = { s with reply := t.reply } := by
  rcases bufferRead_cases c off width s with ⟨-, r, e⟩ | ⟨-, -, e⟩ <;> rw [e] at h <;> cases h
  rfl

/-- A read by address replies with a register, is a read of the buffer, or does not reach the engine. -/
theorem hostRead_next {c : Params} {addr width : Nat} {s t : State} (h : hostRead c addr width s = .next t) :
    t = { s with reply := t.reply } := by
  unfold hostRead at h
  split at h
  case h_1 => cases h; rfl
  case h_2 => exact bufferRead_next h
  case h_3 => cases h; rfl
  case h_4 => cases h
  case h_5 => cases h

/-- Both forms of a host read. -/
theorem hostAccess_read_next {c : Params} {op : HostOp} {a width : Nat} {s t : State}
    (hop : op = .read a width ∨ op = .readBuf a width) (h : hostAccess c op s = .next t) :
    t = { s with reply := t.reply } := by
  rcases hop with rfl | rfl <;> simp only [hostAccess] at h
  · exact hostRead_next h
  · exact bufferRead_next h

/-- Settles O23: the step is the host's read, on the state with the event taken off. -/
theorem hostReadsHaveNoSideEffect : Obligations.HostReadsHaveNoSideEffect := by
  intro s t rest op a width hop hnext hstep
  rw [step_of_host hnext] at hstep
  exact hostAccess_read_next hop hstep

end Sys2Proof.Machine

/-! # Command words (30_encoding.md)

The proofs of the statements about the decoder, the encoder, illegal words and argument roles. What Laws/PerInstr.lean
says of the words of the 22 commands is carried to every word by `eq_encode_of_decode`; what a command answers is
`bodyOf` alone. -/

namespace Sys2Proof.Machine

/-! ### The word of a command -/

/-- The facts of Laws/PerInstr.lean, for every command. -/
theorem encodedLegally : ∀ i : Instr, Laws.EncodedLegally.Statement i
  | .nop => Laws.EncodedLegally.nop
  | .ldp => Laws.EncodedLegally.ldp
  | .ldq => Laws.EncodedLegally.ldq
  | .ldg => Laws.EncodedLegally.ldg
  | .stp => Laws.EncodedLegally.stp
  | .stq => Laws.EncodedLegally.stq
  | .stg => Laws.EncodedLegally.stg
  | .clr => Laws.EncodedLegally.clr
  | .modexp => Laws.EncodedLegally.modexp
  | .modexpg => Laws.EncodedLegally.modexpg
  | .modmul => Laws.EncodedLegally.modmul
  | .modinv => Laws.EncodedLegally.modinv
  | .qrtest => Laws.EncodedLegally.qrtest
  | .gentest => Laws.EncodedLegally.gentest
  | .paramchk => Laws.EncodedLegally.paramchk
  | .encode => Laws.EncodedLegally.encode
  | .decode => Laws.EncodedLegally.decode
  | .kdf => Laws.EncodedLegally.kdf
  | .kdfxor => Laws.EncodedLegally.kdfxor
  | .pack => Laws.EncodedLegally.pack
  | .transpose => Laws.EncodedLegally.transpose
  | .matxor => Laws.EncodedLegally.matxor

@[simp] theorem wellFormed_encode (i : Instr) : (commandFields (encode i)).wellFormed = true := by
  obtain ⟨hlegal, -, -⟩ := encodedLegally i
  exact hlegal

@[simp] theorem decode_encode (i : Instr) : decode (encode i) = .ok i := by
  obtain ⟨-, -, hdecode⟩ := encodedLegally i
  exact hdecode

/-- The opcode extended with zeros (30_encoding.md R70). -/
theorem encode_eq_setWidth (i : Instr) : encode i = (opcodeOf i).setWidth 32 :=
  (BitVec.setWidth_eq_append (by decide)).symm

/-- Settles O1: each row's word is the word of its command, which decodes to the command. -/
theorem opcodeTableDecodes : Obligations.OpcodeTableDecodes :=
  ⟨⟨decode_encode .nop, decode_encode .ldp, decode_encode .ldq, decode_encode .ldg, decode_encode .stp,
    decode_encode .stq, decode_encode .stg, decode_encode .clr, decode_encode .modexp, decode_encode .modexpg,
    decode_encode .modmul, decode_encode .modinv, decode_encode .qrtest, decode_encode .gentest,
    decode_encode .paramchk, decode_encode .encode, decode_encode .decode, decode_encode .kdf, decode_encode .kdfxor,
    decode_encode .pack, decode_encode .transpose, decode_encode .matxor⟩,
   encode_eq_setWidth⟩

/-- Settles O2: the rows of the table give one direction, the facts about each command the other. -/
theorem decodeAgreesWithEncode : Obligations.DecodeAgreesWithEncode :=
  fun _ i => ⟨eq_encode_of_decode, fun hw => hw ▸ decode_encode i⟩

/-! ### Legal words -/

/-- The check of WellFormed.lean is the condition of 30_encoding.md R63 and R71. -/
theorem wellFormed_iff (w : CommandWord) :
    w.wellFormed = true ↔ w.mbz = 0#24 ∧ ¬ ReservedOpcode w.opcode.toNat := by
  have hlt := w.opcode.isLt
  simp only [CommandWord.wellFormed, CommandWord.mbzZero, CommandWord.opcodeAssigned, Bool.and_eq_true, beq_iff_eq,
    Bool.not_eq_true', Bool.or_eq_false_iff, Bool.and_eq_false_iff, beq_eq_false_iff_ne, decide_eq_false_iff_not]
  refine and_congr_right fun _ => ?_
  omega

/-- A word is made of its two fields (30_encoding.md R63). -/
theorem packFields_commandFields (w : Word) : packFields (commandFields w) = w :=
  BitVec.extractLsb'_append_extractLsb'

/-- Every opcode outside the ranges of 30_encoding.md R71 is that of a command (R70). -/
theorem exists_opcodeOf {o : BitVec 8} (h : ¬ ReservedOpcode o.toNat) : ∃ i, opcodeOf i = o := by
  have hlt := o.isLt
  obtain ⟨row, -, hrow⟩ : ∃ row ∈ opcodeTable, (opcodeOf row.2).toNat = o.toNat := by
    simp only [opcodeTable, List.exists_mem_cons_iff, List.not_mem_nil, false_and, exists_false, or_false, opcodeOf,
      BitVec.toNat_ofNat]
    omega
  exact ⟨row.2, BitVec.eq_of_toNat_eq hrow⟩

/-- The decoder answers a command for the legal words alone (30_encoding.md R63, R64). -/
theorem exists_decode_iff_wellFormed (w : Word) :
    (∃ i, decode w = .ok i) ↔ (commandFields w).wellFormed = true := by
  constructor
  · rintro ⟨i, hi⟩
    rw [eq_encode_of_decode hi]
    exact wellFormed_encode i
  · intro hlegal
    obtain ⟨hmbz, hopcode⟩ := (wellFormed_iff _).1 hlegal
    obtain ⟨i, hi⟩ := exists_opcodeOf hopcode
    have hw : w = encode i := by rw [← packFields_commandFields w, encode, hi, ← hmbz]
    exact ⟨i, hw ▸ decode_encode i⟩

/-- Settles O3: the words that decode are the legal ones, and the legal words are those of R63 and R71. -/
theorem legalWordsAreTheDecodedOnes : Obligations.LegalWordsAreTheDecodedOnes :=
  fun w => (exists_decode_iff_wellFormed w).trans (wellFormed_iff (commandFields w))

/-! ### Illegal words -/

theorem exists_decode_error {w : Word} (h : (commandFields w).wellFormed = false) : ∃ e, decode w = .error e := by
  rcases hd : decode w with e | i
  case error => exact ⟨e, rfl⟩
  case ok =>
    have hlegal := (exists_decode_iff_wellFormed w).1 ⟨i, hd⟩
    rw [h] at hlegal
    cases hlegal

/-- A word that does not decode ends with ILLEGAL_CMD (30_encoding.md R71). -/
theorem engineStep_of_decode_error {s : State} {f : InFlight} {e : DecodeError} (hf : s.inflight = some f)
    (hd : decode f.word = .error e) : engineStep s = .next (State.fail s .illegalCmd) := by
  simp only [engineStep, fetched, hf, hd, completeIllegal, State.complete_some s _ f hf, State.finish_error]

/-- Settles O5: an illegal word does not decode, and the engine's step then fails with ILLEGAL_CMD. -/
theorem illegalWordEndsWithIllegalCmd : Obligations.IllegalWordEndsWithIllegalCmd := by
  intro s f rest hnext hf hillegal
  obtain ⟨e, hd⟩ := exists_decode_error hillegal
  rw [step_of_engineNext s rest hnext, engineStep_of_decode_error (s := { s with pending := rest }) hf hd,
    fail_eq_endedWithError, errCodeBits]

/-! ### The arguments a command reads -/

/-- The pseudocode of a command reads the snapshot and the arguments in its roles, and nothing else of the record
(30_encoding.md R66, R74). -/
theorem bodyOf_congr {i : Instr} (c : Params) {f f' : InFlight} (hsnap : f'.snap = f.snap)
    (hroles : ∀ o ∈ argRoles i, argValue f'.args o.2 = argValue f.args o.2) : bodyOf i c f' = bodyOf i c f := by
  obtain ⟨word, ⟨a0, a1, a2, a3, a4, a5⟩, snap⟩ := f
  obtain ⟨word', ⟨b0, b1, b2, b3, b4, b5⟩, snap'⟩ := f'
  obtain rfl : snap' = snap := hsnap
  cases i <;> simp only [argRoles, argValue, List.forall_mem_cons, List.not_mem_nil, IsEmpty.forall_iff,
    implies_true, and_true] at hroles
  case nop | paramchk => rfl
  case ldp | ldq | ldg | qrtest | gentest | stp | stq | stg =>
    obtain rfl := hroles
    rfl
  case clr | modexpg | modinv | decode =>
    obtain ⟨rfl, rfl⟩ := hroles
    rfl
  case modexp | modmul | encode | transpose =>
    obtain ⟨rfl, rfl, rfl⟩ := hroles
    rfl
  case matxor =>
    obtain ⟨rfl, rfl, rfl, rfl⟩ := hroles
    rfl
  case kdf | pack =>
    obtain ⟨rfl, rfl, rfl, rfl, rfl⟩ := hroles
    rfl
  case kdfxor =>
    obtain ⟨rfl, rfl, rfl, rfl, rfl, rfl⟩ := hroles
    rfl

/-- The end of a command drops the record, whichever it was (60_exceptions.md R118). -/
theorem State.finish_withInflight (s : State) (x : Option InFlight) (answer : Body) :
    State.finish { s with inflight := x } answer = State.finish s answer := by
  cases answer <;> rfl

/-- Settles O14: the two records give one answer of the pseudocode, and its end drops the record. -/
theorem ignoredArgumentsHaveNoEffect : Obligations.IgnoredArgumentsHaveNoEffect := by
  intro i s f f' _ hsnap hroles
  rw [exec_eq_complete, exec_eq_complete, State.complete_some _ _ f' rfl, State.complete_some _ _ f rfl,
    bodyOf_congr _ hsnap hroles, State.finish_withInflight s (some f'), State.finish_withInflight s (some f)]

end Sys2Proof.Machine

/-! # Control and parameter commands (40_control.md)

The proofs of the statements about NOP, LDP, LDQ, LDG, STP, STQ, STG and CLR. Each command but NOP makes one bounds check
and then stages one thing, so what such a command does is said once; what its commit leaves and changes is said in
Laws/Frame.lean. -/

namespace Sys2Proof.Machine

/-! ### A command that makes one bounds check -/

section BoundsChecked

variable {i : Instr} {s : State} {f : InFlight}

/-- A command whose only check is the one of the range of n bytes at a: BOUNDS, or the commit of what it stages
(20_memory.md R52, 60_exceptions.md R118). -/
theorem exec_boundsChecked {a n : Nat} {st : Staged} (hf : s.inflight = some f)
    (hbody : bodyOf i Config.platform f = require (inRange Config.platform a n) .bounds >>= fun _ => .ok st) :
    (¬ Fits a n → exec i s = .next (endedWithError s 0x02#8))
    ∧ (Fits a n → exec i s = .next (State.commit s st)) := by
  constructor
  · intro hmiss
    have hcheck : inRange Config.platform a n = false := (inRange_false_iff _ _ _).2 (not_le.1 hmiss)
    exact exec_of_error i s f .bounds hf (by rw [hbody, hcheck, require_false, error_bind])
  · intro hfits
    have hcheck : inRange Config.platform a n = true := (inRange_iff _ _ _).2 hfits
    exact exec_of_ok i s f st hf (by rw [hbody, hcheck, require_true, ok_bind])

/-- A command that stores a 1024-bit number at ARG0, whatever its value (20_memory.md R49). -/
theorem exec_storesElem {v : Nat} (hf : s.inflight = some f) (hv : v < 2 ^ 1024)
    (hbody : bodyOf i Config.platform f
      = require (inRange Config.platform f.arg0 128) .bounds >>= fun _ => .ok (stageElem f.arg0 v)) :
    (¬ Fits f.arg0 128 → exec i s = .next (endedWithError s 0x02#8))
    ∧ (Fits f.arg0 128 → ∃ t, exec i s = .next t ∧ WroteBytes s t 0#32 f.arg0 128 ∧ elemAt t.buf f.arg0 = v) := by
  obtain ⟨hmiss, hfits⟩ := exec_boundsChecked hf hbody
  exact ⟨hmiss, fun h => ⟨_, hfits h, wroteBytes_stageElem s f.arg0 v, elemAt_stageElem s f.arg0 v hv⟩⟩

/-- A command that loads what it stages from ARG1 and writes no byte and no RESULT; `Loaded` is what the commit makes of
P, Q and G (40_control.md R80 to R82). -/
theorem exec_loadsElem {st : Staged} {Loaded : State → Prop} (hf : s.inflight = some f)
    (hbody : bodyOf i Config.platform f = require (inRange Config.platform f.arg1 128) .bounds >>= fun _ => .ok st)
    (hwrites : st.writes = []) (hresult : st.result = 0#32) (hloaded : Loaded (State.commit s st)) :
    (¬ Fits f.arg1 128 → exec i s = .next (endedWithError s 0x02#8))
    ∧ (Fits f.arg1 128 → ∃ t, exec i s = .next t ∧ EndedDone s t ∧ t.result = 0#32 ∧ BytesKept s t ∧ Loaded t) := by
  obtain ⟨hmiss, hfits⟩ := exec_boundsChecked hf hbody
  have hbytes : BytesKept s (State.commit s st) := fun x => by
    rw [State.commit_buf, hwrites, Memory.writeAll_nil]
  exact ⟨hmiss, fun h => ⟨_, hfits h, endedDone_commit s st, hresult, hbytes, hloaded⟩⟩

end BoundsChecked

/-! ### LDP, LDQ and LDG -/

/-- A loaded number is the element of the snapshot as it stands: 128 bytes fit in the register, and the value is not
reduced (40_control.md R80 to R82). -/
theorem toNat_ofNat_elem (f : InFlight) (a : Nat) : (BitVec.ofNat 1024 (f.elem a)).toNat = elemAt f.snap.buf a := by
  rw [BitVec.toNat_ofNat, Nat.mod_eq_of_lt (elem_lt f a)]
  rfl

/-- Settles O27: the one check, then the commit stages P alone. -/
theorem ldpResult : Obligations.LdpResult :=
  ⟨decode_encode .ldp, fun _ f hf =>
    exec_loadsElem (i := .ldp) hf rfl rfl rfl ⟨toNat_ofNat_elem f f.arg1, rfl, rfl⟩⟩

/-- Settles O28: the one check, then the commit stages Q alone. -/
theorem ldqResult : Obligations.LdqResult :=
  ⟨decode_encode .ldq, fun _ f hf =>
    exec_loadsElem (i := .ldq) hf rfl rfl rfl ⟨toNat_ofNat_elem f f.arg1, rfl, rfl⟩⟩

/-- Settles O29: the one check, then the commit stages G alone. -/
theorem ldgResult : Obligations.LdgResult :=
  ⟨decode_encode .ldg, fun _ f hf =>
    exec_loadsElem (i := .ldg) hf rfl rfl rfl ⟨toNat_ofNat_elem f f.arg1, rfl, rfl⟩⟩

/-! ### STP, STQ and STG -/

/-- Settles O30: each of the three stores its parameter of the snapshot, which is a number below 2^1024. -/
theorem storeParameterResult : Obligations.StoreParameterResult := by
  refine ⟨⟨decode_encode .stp, decode_encode .stq, decode_encode .stg⟩, fun s f hf => ?_⟩
  obtain ⟨hmissP, hfitsP⟩ := exec_storesElem (i := .stp) hf f.snap.p.isLt rfl
  obtain ⟨hmissQ, hfitsQ⟩ := exec_storesElem (i := .stq) hf f.snap.q.isLt rfl
  obtain ⟨hmissG, hfitsG⟩ := exec_storesElem (i := .stg) hf f.snap.g.isLt rfl
  exact ⟨fun h => ⟨hmissP h, hmissQ h, hmissG h⟩, fun h => ⟨hfitsP h, hfitsQ h, hfitsG h⟩⟩

/-! ### CLR -/

/-- Settles O31: the one check, then a string of ARG3 zero bytes is written. -/
theorem clrResult : Obligations.ClrResult := by
  refine ⟨decode_encode .clr, fun s f hf => ?_⟩
  obtain ⟨hmiss, hfits⟩ := exec_boundsChecked (i := .clr) hf rfl
  have hlen : (List.replicate f.arg3 0#8).length = f.arg3 := List.length_replicate
  refine ⟨hmiss, fun h => ⟨_, hfits h, wroteBytes_stageBytes s f.arg0 f.arg3 _ hlen, fun k hk => ?_⟩⟩
  rw [read_of_readBytes _ _ _ k _ (readBytes_stageBytes s f.arg0 f.arg3 _ hlen) hk, List.getD_replicate _ hk]

/-! ### NOP -/

/-- The engine's step with a legal word latched is that of its command (60_exceptions.md R118). -/
theorem engineStep_of_decode_ok {s : State} {f : InFlight} {i : Instr} (hf : s.inflight = some f)
    (hd : decode f.word = .ok i) : engineStep s = exec i s := by
  simp only [engineStep, fetched, hf, hd]

/-- NOP stages nothing, so its end is a commit of nothing. -/
theorem exec_nop {s : State} {f : InFlight} (hf : s.inflight = some f) :
    exec .nop s = .next (State.commit s {}) :=
  exec_of_ok .nop s f {} hf rfl

/-- Settles O26: an accept, where NOP comes from IDLE, and then a commit of nothing. -/
theorem nopResult : Obligations.NopResult := by
  refine ⟨decode_encode .nop, fun s f hf => ?_, fun s rest hwrite hidle => ?_⟩
  · exact ⟨_, exec_nop hf, wroteResult_stageResult s 0⟩
  · have haccept := step_cmdWrite_idle hwrite hidle
    have hend : step (State.accept { s with pending := .complete :: rest } 0x00000000#32)
        = .next (State.commit { State.accept { s with pending := .complete :: rest } 0x00000000#32 with
            pending := rest } {}) := by
      rw [step_of_engineNext _ rest (.inl rfl), engineStep_of_decode_ok rfl (decode_encode .nop), exec_nop rfl]
    exact ⟨_, _, haccept, rfl, rfl, rfl, rfl, hend, rfl, rfl, rfl, rfl, rfl, rfl, rfl⟩

end Sys2Proof.Machine

/-! # Modular arithmetic commands (41_modarith.md)

The proofs of the statements about MODEXP, MODEXPG, MODMUL, MODINV, QRTEST, GENTEST, PARAMCHK, ENCODE and DECODE. What a
check of a command's pseudocode decides is said once, for the check that comes next; a command's proof goes through its
checks in their order, and Laws/BigNum.lean gives the value that is left. -/

namespace Sys2Proof.Machine

/-! ### The checks, one after the other -/

section Checks

variable {i : Instr} {s : State} {f : InFlight}

/-- A command ends as its pseudocode answers on the record in flight (60_exceptions.md R118). -/
theorem exec_eq_finish (i : Instr) (hf : s.inflight = some f) :
    exec i s = .next (State.finish s (bodyOf i Config.platform f)) := by
  rw [exec_eq_complete, State.complete_some s _ f hf]

/-- The check that comes next raises its error, or what follows it decides the end (60_exceptions.md R118, R120). -/
theorem exec_require {ok : Bool} {C : Prop} {e : ErrCode} {rest : Unit → Body}
    (hexec : exec i s = .next (State.finish s (require ok e >>= rest))) (hok : ok = true ↔ C) :
    (¬ C → exec i s = .next (endedWithError s (errCodeBits e)))
    ∧ (C → exec i s = .next (State.finish s (rest ()))) := by
  rw [hexec]
  cases ok with
  | false => exact ⟨fun _ => rfl, fun hC => absurd (hok.2 hC) Bool.false_ne_true⟩
  | true => exact ⟨fun hC => absurd (hok.1 rfl) hC, fun _ => rfl⟩

/-- The modulus check comes first: BAD_MODULUS, or the rest with P of the snapshot (41_modarith.md R87). -/
theorem exec_checkModulus {rest : Nat → Body} (hf : s.inflight = some f)
    (hbody : bodyOf i Config.platform f = checkModulus f >>= rest) :
    (¬ GoodModulus f → exec i s = .next (endedWithError s 0x03#8))
    ∧ (GoodModulus f → exec i s = .next (State.finish s (rest f.modulus))) := by
  rw [exec_eq_finish i hf, hbody, checkModulus_eq]
  constructor
  · intro hbad
    rw [if_neg hbad]
    rfl
  · intro hgood
    rw [if_pos hgood]
    rfl

/-- The modulus check, then the check of the operand ranges, with which every command of the family but PARAMCHK and
ENCODE begins (41_modarith.md R87). -/
theorem exec_checkModulus_bounds {ok : Bool} {C : Prop} {rest : Nat → Body} (hf : s.inflight = some f)
    (hbody : bodyOf i Config.platform f = checkModulus f >>= fun P => require ok .bounds >>= fun _ => rest P)
    (hok : ok = true ↔ C) :
    (¬ GoodModulus f → exec i s = .next (endedWithError s 0x03#8))
    ∧ (GoodModulus f → ¬ C → exec i s = .next (endedWithError s 0x02#8))
    ∧ (GoodModulus f → C → exec i s = .next (State.finish s (rest f.modulus))) := by
  obtain ⟨hbad, hgood⟩ := exec_checkModulus hf hbody
  exact ⟨hbad, fun hg => (exec_require (hgood hg) hok).1, fun hg => (exec_require (hgood hg) hok).2⟩

/-- Two ranges are checked together (20_memory.md R52). -/
theorem inRange_and_iff {a n b m : Nat} :
    (inRange Config.platform a n && inRange Config.platform b m) = true ↔ Fits a n ∧ Fits b m := by
  rw [Bool.and_eq_true, inRange_iff, inRange_iff]

/-- Three ranges are checked together (20_memory.md R52). -/
theorem inRange_and_and_iff {a n b m c k : Nat} :
    (inRange Config.platform a n && inRange Config.platform b m && inRange Config.platform c k) = true
      ↔ Fits a n ∧ Fits b m ∧ Fits c k := by
  rw [Bool.and_eq_true, inRange_and_iff, inRange_iff, and_assoc]

end Checks

/-! ### MODEXP, MODEXPG and MODMUL -/

/-- A number in [0, P) is written whole as 128 bytes (41_modarith.md R99). -/
theorem elemAt_stageElem_of_lt_modulus (s : State) (f : InFlight) (a : Nat) {v : Nat} (hv : v < f.modulus) :
    elemAt (State.commit s (stageElem a v)).buf a = v :=
  elemAt_stageElem s a v (hv.trans (modulus_lt f))

/-- A command that stores a residue modulo P at ARG0 after its checks: BAD_MODULUS, BOUNDS, or the 128 bytes of the
residue of x (41_modarith.md R99). -/
theorem exec_storesResidue {i : Instr} {s : State} {f : InFlight} {ok : Bool} {C : Prop} {v : Nat → Nat} {x : Nat}
    (hf : s.inflight = some f)
    (hbody : bodyOf i Config.platform f
      = checkModulus f >>= fun P => require ok .bounds >>= fun _ => .ok (stageElem f.arg0 (v P)))
    (hok : ok = true ↔ C) (hv : 0 < f.modulus → v f.modulus = x % f.modulus) :
    (¬ GoodModulus f → exec i s = .next (endedWithError s 0x03#8))
    ∧ (GoodModulus f → ¬ C → exec i s = .next (endedWithError s 0x02#8))
    ∧ (GoodModulus f → C → ∃ t, exec i s = .next t ∧ WroteBytes s t 0#32 f.arg0 128
        ∧ elemAt t.buf f.arg0 = x % f.modulus) := by
  obtain ⟨hbad, hmiss, hfits⟩ := exec_checkModulus_bounds hf hbody hok
  refine ⟨hbad, hmiss, fun hg hC => ⟨_, hfits hg hC, wroteBytes_stageElem s f.arg0 _, ?_⟩⟩
  have hpos : 0 < f.modulus := by omega
  rw [hv hpos]
  exact elemAt_stageElem_of_lt_modulus s f f.arg0 (Nat.mod_lt x hpos)

/-- Settles O32: the checks of R88, then the residue of the power with the whole exponent. -/
theorem modexpResult : Obligations.ModexpResult := by
  refine ⟨decode_encode .modexp, fun s f hf => ?_⟩
  obtain ⟨hbad, hmiss, hfits⟩ :=
    exec_storesResidue (i := .modexp) hf rfl inRange_and_and_iff
      (powMod_eq (f.elem f.arg1 % f.modulus) (f.elem f.arg2) _)
  exact ⟨hbad, hmiss, fun hg h1 h2 h0 => hfits hg ⟨h1, h2, h0⟩⟩

/-- Settles O33: the checks of R89, then the residue of the power of the snapshot's G. -/
theorem modexpgResult : Obligations.ModexpgResult := by
  refine ⟨decode_encode .modexpg, fun s f hf => ?_⟩
  obtain ⟨hbad, hmiss, hfits⟩ :=
    exec_storesResidue (i := .modexpg) hf rfl inRange_and_iff (powMod_eq (f.generator % f.modulus) (f.elem f.arg2) _)
  exact ⟨hbad, hmiss, fun hg h2 h0 => hfits hg ⟨h2, h0⟩⟩

/-- Settles O34: the checks of R90, then the residue of the exact product. -/
theorem modmulResult : Obligations.ModmulResult := by
  refine ⟨decode_encode .modmul, fun s f hf => ?_⟩
  obtain ⟨hbad, hmiss, hfits⟩ := exec_storesResidue (i := .modmul) hf rfl inRange_and_and_iff fun _ => rfl
  exact ⟨hbad, hmiss, fun hg h1 h2 h0 => hfits hg ⟨h1, h2, h0⟩⟩

/-! ### MODINV -/

/-- The operand and its residue have the same common divisors with the modulus, so the check of 41_modarith.md R91 may
look at either. -/
theorem gcd_mod_beq_one_iff (a P : Nat) : (Nat.gcd (a % P) P == 1) = true ↔ Nat.gcd a P = 1 := by
  rw [beq_iff_eq, ← Nat.gcd_rec, Nat.gcd_comm]

/-- The inverse of the residue is the inverse of the operand (41_modarith.md R91). -/
theorem invMod_mod_spec {a P : Nat} (hP : 1 < P) (hgcd : Nat.gcd a P = 1) :
    1 ≤ invMod (a % P) P ∧ invMod (a % P) P < P ∧ a * invMod (a % P) P % P = 1 := by
  obtain ⟨hpos, hlt, hinv⟩ := invMod_spec (a % P) P hP (beq_iff_eq.1 ((gcd_mod_beq_one_iff a P).2 hgcd))
  exact ⟨hpos, hlt, by rwa [Nat.mod_mul_mod] at hinv⟩

/-- Settles O35: the checks of R91, the last one of the common divisor, then the inverse in [1, P). -/
theorem modinvResult : Obligations.ModinvResult := by
  refine ⟨decode_encode .modinv, fun s f hf => ?_⟩
  obtain ⟨hbad, hmiss, hfits⟩ := exec_checkModulus_bounds (i := .modinv) hf rfl inRange_and_iff
  have hgcd := fun hg hC => exec_require (hfits hg hC) (gcd_mod_beq_one_iff _ _)
  refine ⟨hbad, hmiss, fun hg h1 h0 hne => (hgcd hg ⟨h1, h0⟩).1 hne, fun hg h1 h0 hone => ?_⟩
  obtain ⟨hpos, hlt, hinv⟩ := invMod_mod_spec (a := f.elem f.arg1) (by omega) hone
  refine ⟨State.commit s (stageElem f.arg0 _), (hgcd hg ⟨h1, h0⟩).2 hone, wroteBytes_stageElem s f.arg0 _, ?_⟩
  rw [elemAt_stageElem_of_lt_modulus s f f.arg0 hlt]
  exact ⟨hpos, hlt, hinv⟩

/-! ### QRTEST, GENTEST and PARAMCHK -/

/-- A base reduced before the power gives the same residue (41_modarith.md R99). -/
theorem powMod_mod (b e : Nat) {m : Nat} (hm : 0 < m) : powMod (b % m) e m = b ^ e % m := by
  rw [powMod_eq _ _ _ hm, ← Nat.pow_mod]

/-- A commit of a test's answer: RESULT is 1 when what the test looks for holds and 0 otherwise. -/
theorem wroteResult_stageTest_iff (s : State) {b : Bool} {C : Prop} [Decidable C] (h : b = true ↔ C) :
    WroteResult s (State.commit s (stageTest b)) (if C then 1#32 else 0#32) := by
  have hwrote := wroteResult_stageTest s b
  simpa only [h] using hwrote

/-- A test of the power a^((P-1)/2) mod P against a number of P, for the operand a at ARG1 (41_modarith.md R92, R93). -/
theorem exec_testsHalfPower {i : Instr} {s : State} {f : InFlight} {target : Nat → Nat} (hf : s.inflight = some f)
    (hbody : bodyOf i Config.platform f
      = checkModulus f >>= fun P => require (inRange Config.platform f.arg1 128) .bounds >>= fun _ =>
          .ok (stageTest (powMod (f.elem f.arg1 % P) (halfOf P) P == target P))) :
    (¬ GoodModulus f → exec i s = .next (endedWithError s 0x03#8))
    ∧ (GoodModulus f → ¬ Fits f.arg1 128 → exec i s = .next (endedWithError s 0x02#8))
    ∧ (GoodModulus f → Fits f.arg1 128 → ∃ t, exec i s = .next t ∧ WroteResult s t
        (if elemAt f.snap.buf f.arg1 ^ ((f.modulus - 1) / 2) % f.modulus = target f.modulus then 1#32 else 0#32)) := by
  obtain ⟨hbad, hmiss, hfits⟩ := exec_checkModulus_bounds hf hbody (inRange_iff _ _ _)
  refine ⟨hbad, hmiss, fun hg h1 => ⟨_, hfits hg h1, wroteResult_stageTest_iff s ?_⟩⟩
  rw [beq_iff_eq, powMod_mod _ _ (by omega)]
  rfl

/-- Settles O36: the half power is tested against 1. -/
theorem qrtestResult : Obligations.QrtestResult :=
  ⟨decode_encode .qrtest, fun _ _ hf => exec_testsHalfPower (i := .qrtest) (target := fun _ => 1) hf rfl⟩

/-- Settles O37: the half power is tested against P - 1. -/
theorem gentestResult : Obligations.GentestResult :=
  ⟨decode_encode .gentest, fun _ _ hf => exec_testsHalfPower (i := .gentest) (target := fun P => P - 1) hf rfl⟩

/-- Settles O38: the modulus check alone, then the power of G to Q is tested against 1. -/
theorem paramchkResult : Obligations.ParamchkResult := by
  refine ⟨decode_encode .paramchk, fun s f hf => ?_⟩
  obtain ⟨hbad, hgood⟩ := exec_checkModulus (i := .paramchk) hf rfl
  refine ⟨hbad, fun hg => ⟨_, hgood hg, wroteResult_stageTest_iff s ?_⟩⟩
  rw [beq_iff_eq, powMod_mod _ _ (by omega)]
  rfl

/-! ### ENCODE -/

/-- ENCODE's value before the negation: the bit above the message, and the message (41_modarith.md R95). -/
theorem markedMessage_memRead (f : InFlight) (a n : Nat) :
    markedMessage (f.memRead a n) = 2 ^ (8 * n) + beInt (Memory.readBytes f.snap.buf a n) := by
  rw [markedMessage, length_memRead, InFlight.memRead]

theorem markedMessage_pos (msg : List Byte) : 0 < markedMessage msg :=
  Nat.add_pos_left (Nat.two_pow_pos _) _

/-- ENCODE's value after the negation, which Euler's criterion decides (41_modarith.md R95). -/
def encodedValue (P m : Nat) : Nat := if m ^ halfOf P % P = 1 then m else P - m

theorem encodedValue_lt {P m : Nat} (hP : 3 ≤ P) (hm : 0 < m) (hle : m ≤ halfOf P) : encodedValue P m < P := by
  unfold halfOf at hle
  unfold encodedValue
  split <;> omega

/-- The value ENCODE stages. -/
theorem ite_powMod_eq_encodedValue {P : Nat} (m : Nat) (hP : 0 < P) :
    (if powMod m (halfOf P) P == 1 then m else P - m) = encodedValue P m := by
  simp only [encodedValue, powMod_eq _ _ _ hP, beq_iff_eq]

/-- Settles O39: the four checks of R95 in their order, then the marked message or its negative. -/
theorem encodeResult : Obligations.EncodeResult := by
  refine ⟨decode_encode .encode, fun s f m hf hm => ?_⟩
  rw [← markedMessage_memRead] at hm
  obtain ⟨hbad, hgood⟩ := exec_checkModulus (i := .encode) hf rfl
  have hlength := fun hg => exec_require (hgood hg) decide_eq_true_iff
  have hbounds := fun hg h3 => exec_require ((hlength hg).2 h3) inRange_and_iff
  have hrange := fun hg h3 hC => exec_require ((hbounds hg h3).2 hC) decide_eq_true_iff
  subst hm
  refine ⟨hbad, fun hg h3 => (hlength hg).1 (not_lt.2 h3), fun hg h3 => (hbounds hg h3).1,
    fun hg h3 h1 h0 hlt => (hrange hg h3 ⟨h1, h0⟩).1 (not_le.2 hlt), fun hg h3 h1 h0 hle => ?_⟩
  refine ⟨_, (hrange hg h3 ⟨h1, h0⟩).2 hle, wroteBytes_stageElem s f.arg0 _, ?_⟩
  rw [ite_powMod_eq_encodedValue _ (by omega)]
  exact elemAt_stageElem_of_lt_modulus s f f.arg0 (encodedValue_lt hg.2 (markedMessage_pos _) hle)

/-! ### DECODE -/

/-- DECODE of a folded element, by the place of its top bit: the element is not 0 and the place is a multiple of 8, then
the destination fits, then the stripped value is staged (41_modarith.md R96). -/
theorem decodeFolded_eq (c : Params) (dst e : Nat) :
    decodeFolded c dst e
      = require (decide (e ≠ 0 ∧ Nat.log2 e % 8 = 0)) .decode >>= fun _ =>
        require (inRange c dst (Nat.log2 e / 8)) .bounds >>= fun _ =>
        .ok { writes := [(dst, beBytes (Nat.log2 e / 8) (e - 2 ^ Nat.log2 e))]
              result := BitVec.ofNat 32 (Nat.log2 e / 8) } := by
  by_cases he : e = 0
  · simp [decodeFolded, he]
  · have hne : (e != 0) = true := bne_iff_ne.2 he
    have hplace : bitLen e - 1 = Nat.log2 e := by rw [bitLen, if_neg he, Nat.add_sub_cancel]
    by_cases hk : Nat.log2 e % 8 = 0
    · simp [decodeFolded, he, hne, hplace, hk]
    · have hplace_ne : (Nat.log2 e % 8 == 0) = false := beq_false_of_ne hk
      simp [decodeFolded, hne, hplace, hk, hplace_ne]

/-- A value of n bytes, in bits. -/
theorem pow_256_eq_two_pow (n : Nat) : 256 ^ n = 2 ^ (8 * n) := by
  rw [pow_mul]
  norm_num

/-- The stripped value has the bytes below the top bit (41_modarith.md R96). -/
theorem sub_two_pow_log2_lt {e : Nat} (he : e ≠ 0) (hk : Nat.log2 e % 8 = 0) :
    e - 2 ^ Nat.log2 e < 256 ^ (Nat.log2 e / 8) := by
  have hlo : 2 ^ Nat.log2 e ≤ e := Nat.log2_self_le he
  have hhi : e < 2 ^ (Nat.log2 e + 1) := Nat.lt_log2_self
  rw [pow_succ] at hhi
  rw [pow_256_eq_two_pow, Nat.mul_div_cancel' (Nat.dvd_of_mod_eq_zero hk)]
  omega

/-- DECODE's length in terms of the top bit's place (41_modarith.md R96). -/
theorem log2_foldElem_le {P e : Nat} (hP : P < 2 ^ 1024) (he : e < P) (hodd : P % 2 = 1) (hne : foldElem P e ≠ 0) :
    Nat.log2 (foldElem P e) / 8 ≤ 127 := by
  have hle := decoded_length_le P e hP he hodd
  rwa [bitLen, if_neg hne, Nat.add_sub_cancel] at hle

/-- A commit of n bytes, with a RESULT. -/
theorem wroteBytes_commit_of_length (s : State) (a : Nat) (r : Word) {bs : List Byte} {n : Nat} (h : bs.length = n) :
    WroteBytes s (State.commit s { writes := [(a, bs)], result := r }) r a n :=
  h ▸ wroteBytes_commit s a bs r

theorem readBytes_commit_of_length (s : State) (a : Nat) (r : Word) {bs : List Byte} {n : Nat} (h : bs.length = n) :
    Memory.readBytes (State.commit s { writes := [(a, bs)], result := r }).buf a n = bs :=
  h ▸ readBytes_commit s a bs r

/-- DECODE from the fold on: DECODE, BOUNDS, or the bytes below the top bit (41_modarith.md R96). -/
theorem exec_decodeFolded {i : Instr} {s : State} {dst e : Nat}
    (hexec : exec i s = .next (State.finish s (decodeFolded Config.platform dst e))) :
    (e = 0 ∨ Nat.log2 e % 8 ≠ 0 → exec i s = .next (endedWithError s 0x08#8))
    ∧ (e ≠ 0 → Nat.log2 e % 8 = 0 → ¬ Fits dst (Nat.log2 e / 8) → exec i s = .next (endedWithError s 0x02#8))
    ∧ (e ≠ 0 → Nat.log2 e % 8 = 0 → Fits dst (Nat.log2 e / 8) →
      ∃ t, exec i s = .next t ∧ WroteBytes s t (BitVec.ofNat 32 (Nat.log2 e / 8)) dst (Nat.log2 e / 8)
        ∧ beInt (Memory.readBytes t.buf dst (Nat.log2 e / 8)) = e - 2 ^ Nat.log2 e) := by
  rw [decodeFolded_eq] at hexec
  obtain ⟨hbad, hmarked⟩ := exec_require hexec decide_eq_true_iff
  have hbounds := fun hC => exec_require (hmarked hC) (inRange_iff _ _ _)
  refine ⟨fun hor => hbad (by tauto), fun hne hk => (hbounds ⟨hne, hk⟩).1, fun hne hk hfits => ?_⟩
  have hlen := length_beBytes (Nat.log2 e / 8) (e - 2 ^ Nat.log2 e)
  refine ⟨State.commit s _, (hbounds ⟨hne, hk⟩).2 hfits, wroteBytes_commit_of_length s dst _ hlen, ?_⟩
  rw [readBytes_commit_of_length s dst _ hlen, beInt_beBytes _ _ (sub_two_pow_log2_lt hne hk)]

/-- Settles O40: the checks of R96 up to the fold, and then DECODE of the folded element. -/
theorem decodeResult : Obligations.DecodeResult := by
  refine ⟨decode_encode .decode, fun s f e k n hf he hk hn => ?_⟩
  obtain rfl : e = foldElem f.modulus (f.elem f.arg1) := he
  subst hk hn
  obtain ⟨hbad, hmiss, hfits⟩ := exec_checkModulus_bounds (i := .decode) hf rfl (inRange_iff _ _ _)
  have hrange := fun hg h1 => exec_require (hfits hg h1) decide_eq_true_iff
  have hfolded := fun hg h1 hlt => exec_decodeFolded ((hrange hg h1).2 hlt)
  refine ⟨hbad, hmiss, fun hg h1 hge => (hrange hg h1).1 (not_lt.2 hge), fun hg h1 hlt => (hfolded hg h1 hlt).1,
    fun hg h1 hlt => ?_, fun hg h1 hlt hne h8 h0 => ?_⟩
  · obtain ⟨-, hmissDst, -⟩ := hfolded hg h1 hlt
    exact hmissDst
  · obtain ⟨-, -, hdone⟩ := hfolded hg h1 hlt
    exact ⟨log2_foldElem_le (modulus_lt f) hlt hg.1 hne, hdone hne h8 h0⟩

/-! ### DECODE inverts ENCODE -/

/-- The fold takes ENCODE's negation back: m lies in [1, h] and P - m above h (41_modarith.md R97). -/
theorem foldElem_encodedValue {P m : Nat} (hodd : P % 2 = 1) (hm : 0 < m) (hle : m ≤ halfOf P) :
    foldElem P (encodedValue P m) = m := by
  unfold halfOf at hle
  unfold encodedValue
  split
  · exact if_neg (by unfold halfOf; omega)
  · unfold foldElem halfOf
    rw [if_pos (by omega)]
    omega

/-- The top bit of a marked message stands just above its bytes (41_modarith.md R97). -/
theorem log2_markedMessage (msg : List Byte) : Nat.log2 (markedMessage msg) = 8 * msg.length := by
  have hlt : beInt msg < 2 ^ (8 * msg.length) := by
    rw [← pow_256_eq_two_pow]
    exact beInt_lt msg
  rw [Nat.log2_eq_iff (markedMessage_pos msg).ne', markedMessage, pow_succ]
  omega

/-- What ENCODE leaves at ARG0 when its checks pass (41_modarith.md R95). -/
theorem elemAt_of_exec_encode {s t : State} {f : InFlight} (hf : s.inflight = some f) (hgood : GoodModulus f)
    (hlen : f.arg3 < 128) (h1 : Fits f.arg1 f.arg3) (h0 : Fits f.arg0 128)
    (hle : markedMessage (f.memRead f.arg1 f.arg3) ≤ halfOf f.modulus) (hexec : exec .encode s = .next t) :
    elemAt t.buf f.arg0 = encodedValue f.modulus (markedMessage (f.memRead f.arg1 f.arg3)) := by
  obtain ⟨-, hclauses⟩ := encodeResult
  obtain ⟨-, -, -, -, hdone⟩ := hclauses s f _ hf (markedMessage_memRead f f.arg1 f.arg3)
  obtain ⟨u, hu, -, hvalue⟩ := hdone hgood hlen h1 h0 hle
  obtain rfl : u = t := Host.Outcome.next.inj (hu.symm.trans hexec)
  exact hvalue

/-- DECODE of an element that folds to a marked message writes the message (41_modarith.md R96). -/
theorem exec_decode_markedMessage {s : State} {f : InFlight} {msg : List Byte} (hf : s.inflight = some f)
    (hgood : GoodModulus f) (h1 : Fits f.arg1 128) (hlt : elemAt f.snap.buf f.arg1 < f.modulus)
    (hfold : foldElem f.modulus (elemAt f.snap.buf f.arg1) = markedMessage msg) (h0 : Fits f.arg0 msg.length) :
    ∃ t, exec .decode s = .next t ∧ WroteBytes s t (BitVec.ofNat 32 msg.length) f.arg0 msg.length
      ∧ Memory.readBytes t.buf f.arg0 msg.length = msg := by
  have hlog := log2_markedMessage msg
  obtain ⟨-, hclauses⟩ := decodeResult
  obtain ⟨-, -, -, -, -, hdone⟩ := hclauses s f _ _ msg.length hf hfold.symm hlog.symm (by omega)
  obtain ⟨-, t, ht, hwrote, hvalue⟩ := hdone hgood h1 hlt (markedMessage_pos msg).ne' (by omega) h0
  refine ⟨t, ht, hwrote, beInt_inj (Memory.length_readBytes _ _ _) ?_⟩
  rw [hvalue, markedMessage, Nat.add_sub_cancel_left]

/-- Settles O41: ENCODE left the marked message or its negative, which the fold takes back. -/
theorem decodeInvertsEncode : Obligations.DecodeInvertsEncode := by
  intro s s' t f f' hf ⟨hodd, hthree⟩ hlen hle h1 h0 hencode hf' hbuf hp harg hdst
  rw [← markedMessage_memRead] at hle
  have hmodulus : f'.modulus = f.modulus := by rw [InFlight.modulus, InFlight.modulus, hp]
  have hmsg := length_memRead f f.arg1 f.arg3
  have hpos := markedMessage_pos (f.memRead f.arg1 f.arg3)
  have helem : elemAt f'.snap.buf f'.arg1 = encodedValue f'.modulus (markedMessage (f.memRead f.arg1 f.arg3)) := by
    rw [hbuf, harg, hmodulus]
    exact elemAt_of_exec_encode hf ⟨hodd, hthree⟩ hlen h1 h0 hle hencode
  rw [← hmodulus] at hle hodd hthree
  obtain ⟨t', ht', hwrote, hread⟩ := exec_decode_markedMessage hf' ⟨hodd, hthree⟩ (harg ▸ h0)
    (helem ▸ encodedValue_lt hthree hpos hle) (helem ▸ foldElem_encodedValue hodd hpos hle) (hmsg.symm ▸ hdst)
  rw [hmsg] at hwrote hread
  refine ⟨t', ht', hwrote.ended.done, ?_, hread⟩
  rw [hwrote.result, BitVec.toNat_ofNat]
  omega

end Sys2Proof.Machine

/-! # Key-derivation commands (42_kdf.md)

The proofs of the statements about the pad, KDF and KDFXOR. Laws/Kdf.lean speaks of the hash chain; here its cut to the
pad's length comes in. The two commands differ only in the bytes they store after one check of their ranges, so that is
said once. -/

namespace Sys2Proof.Machine

/-! ### The pad -/

/-- A block that begins below the pad's length is one of the blocks hashed (42_kdf.md R101). -/
theorem lt_blocks_of_mul_lt {c : Params} {L i : Nat} (h : i * c.hashLen < L) : i < (L + c.hashLen - 1) / c.hashLen :=
  Nat.lt_of_mul_lt_mul_right (h.trans_le (blocks_cover c L))

/-- Block i of the pad is block i of the chain, cut to what is left (42_kdf.md R101). -/
theorem kdfPad_block (c : Params) (L : Nat) (ds : Word) (seed : List Byte) {i : Nat} (hi : i * c.hashLen < L) :
    ((kdfPad c L ds seed).drop (i * c.hashLen)).take c.hashLen
      = (c.kdfH^[i] (c.kdfH (beBytes 4 ds.toNat ++ seed))).take (min c.hashLen (L - i * c.hashLen)) := by
  have hblock := hashChain_block c _ i _ (Params.length_kdfH c (beBytes 4 ds.toNat ++ seed)) (lt_blocks_of_mul_lt hi)
  rw [kdfPad, List.drop_take, List.take_take, ← hblock, List.take_take, min_right_comm, min_self]

/-- Settles O42: the length is that of Laws/Exec.lean, and each block is one of the chain. -/
theorem padIsTheHashChain : Obligations.PadIsTheHashChain :=
  fun c L ds seed => ⟨length_kdfPad c L ds seed, fun _ => kdfPad_block c L ds seed⟩

/-- Settles O43: the longer pad hashes at least as many blocks, and the chains agree on what both have. -/
theorem padPrefix : Obligations.PadPrefix := by
  intro c L1 L2 ds seed hle
  rw [kdfPad, kdfPad, List.take_take, min_eq_left hle]
  exact (take_hashChain c _ _ L1 _ (Params.length_kdfH c _) (blocks_mono c L1 L2 hle) (blocks_cover c L1)).symm

/-- The pad of a key-derivation command: its length, separator and seed are those of the record (42_kdf.md R102, R103). -/
def InFlight.pad (f : InFlight) : List Byte :=
  kdfPad Config.platform f.arg3 f.args.a4 (f.memRead f.arg1 f.arg5)

@[simp] theorem InFlight.length_pad (f : InFlight) : f.pad.length = f.arg3 :=
  length_kdfPad _ _ _ _

/-- The pad depends on the length, the separator and the seed's bytes, and not on where the seed lies
(42_kdf.md R104). -/
theorem InFlight.pad_congr {f f' : InFlight} (hlen : f'.arg3 = f.arg3) (hds : f'.args.a4 = f.args.a4)
    (hseed : f'.memRead f'.arg1 f'.arg5 = f.memRead f.arg1 f.arg5) : f'.pad = f.pad := by
  rw [InFlight.pad, InFlight.pad, hlen, hds, hseed]

/-! ### KDF and KDFXOR -/

/-- A command that stores n bytes at ARG0 after one check of its ranges: BOUNDS, or the bytes are there
(42_kdf.md R102, R103). -/
theorem exec_storesBytes {i : Instr} {s : State} {f : InFlight} {ok : Bool} {C : Prop} {bs : List Byte} {n : Nat}
    (hf : s.inflight = some f)
    (hbody : bodyOf i Config.platform f = require ok .bounds >>= fun _ => .ok (stageBytes f.arg0 bs))
    (hok : ok = true ↔ C) (hlen : bs.length = n) :
    (¬ C → exec i s = .next (endedWithError s 0x02#8))
    ∧ (C → ∃ t, exec i s = .next t ∧ WroteBytes s t 0#32 f.arg0 n ∧ Memory.readBytes t.buf f.arg0 n = bs) := by
  have hexec := exec_eq_finish i hf
  rw [hbody] at hexec
  obtain ⟨hmiss, hfits⟩ := exec_require hexec hok
  exact ⟨hmiss, fun hC =>
    ⟨_, hfits hC, wroteBytes_stageBytes s f.arg0 n bs hlen, readBytes_stageBytes s f.arg0 n bs hlen⟩⟩

/-- Settles O44: the one check, then the pad is stored. -/
theorem kdfResult : Obligations.KdfResult := by
  refine ⟨decode_encode .kdf, fun s f hf => ?_⟩
  obtain ⟨hmiss, hfits⟩ := exec_storesBytes (i := .kdf) (bs := f.pad) hf rfl inRange_and_iff f.length_pad
  exact ⟨hmiss, fun h1 h0 => hfits ⟨h1, h0⟩⟩

/-- KDFXOR: BOUNDS, or the pad XOR the data is at ARG0 (42_kdf.md R103). -/
theorem exec_kdfxor {s : State} {f : InFlight} (hf : s.inflight = some f) :
    (¬ (Fits f.arg1 f.arg5 ∧ Fits f.arg0 f.arg3 ∧ Fits f.arg2 f.arg3) →
      exec .kdfxor s = .next (endedWithError s 0x02#8))
    ∧ (Fits f.arg1 f.arg5 ∧ Fits f.arg0 f.arg3 ∧ Fits f.arg2 f.arg3 →
      ∃ t, exec .kdfxor s = .next t ∧ WroteBytes s t 0#32 f.arg0 f.arg3
        ∧ Memory.readBytes t.buf f.arg0 f.arg3 = xorBytes f.pad (f.memRead f.arg2 f.arg3)) :=
  exec_storesBytes (i := .kdfxor) hf rfl inRange_and_and_iff (by simp)

/-- Settles O45: what `exec_kdfxor` says of the string, byte by byte. -/
theorem kdfxorResult : Obligations.KdfxorResult := by
  refine ⟨decode_encode .kdfxor, fun s f hf => ?_⟩
  obtain ⟨hmiss, hfits⟩ := exec_kdfxor hf
  refine ⟨hmiss, fun h1 h0 h2 => ?_⟩
  obtain ⟨t, ht, hwrote, hread⟩ := hfits ⟨h1, h0, h2⟩
  refine ⟨t, ht, hwrote, fun k hk => ?_⟩
  have hdata : Memory.read f.snap.buf (f.arg2 + k) = (f.memRead f.arg2 f.arg3).getD k 0#8 :=
    read_of_readBytes _ _ _ k _ rfl hk
  rw [read_of_readBytes _ _ _ k _ hread hk, getD_xorBytes _ _ (by simp), hdata]
  rfl

/-- Settles O46: the second pad is the first one, and XOR with one string twice restores the data. -/
theorem kdfxorTwiceRestores : Obligations.KdfxorTwiceRestores := by
  intro s s' t f f' hf h1 h0 h2 hexec hf' hbuf hdata hlen hds _ hseed h1' h0'
  obtain ⟨-, hfirst⟩ := exec_kdfxor hf
  obtain ⟨u, hu, -, hread⟩ := hfirst ⟨h1, h0, h2⟩
  obtain rfl : u = t := Host.Outcome.next.inj (hu.symm.trans hexec)
  have hpad : f'.pad = f.pad := InFlight.pad_congr hlen hds (by rw [InFlight.memRead, hbuf, hseed, InFlight.memRead])
  have hinput : f'.memRead f'.arg2 f'.arg3 = xorBytes f.pad (f.memRead f.arg2 f.arg3) := by
    rw [InFlight.memRead, hbuf, hdata, hlen, hread]
  have h2' : Fits f'.arg2 f'.arg3 := by rwa [hdata, hlen]
  obtain ⟨-, hsecond⟩ := exec_kdfxor hf'
  obtain ⟨t', ht', hwrote, hread'⟩ := hsecond ⟨h1', h0', h2'⟩
  refine ⟨t', ht', hwrote.ended.done, ?_⟩
  rw [hpad, hinput, xorBytes_xorBytes _ _ (by simp), hlen] at hread'
  exact hread'

end Sys2Proof.Machine

/-! # Bit-matrix commands (43_bitmatrix.md)

The proofs of the statements about PACK, TRANSPOSE and MATXOR. Each command makes the dimension check, then checks its
ranges, then stores; what such a command does is said once. A byte of a matrix is named by its column and its place in
the column, and a bit by its row and column, so every proof about a byte or bit goes through that decomposition. -/

namespace Sys2Proof.Machine

/-! ### The checks -/

section DimsChecked

variable {i : Instr} {s : State} {f : InFlight} {ok : Bool} {C : Prop} {rest : Nat × Nat → Body}

/-- A command that makes the dimension check and then one check of its ranges: DIM, BOUNDS, or the commit of what it
stages (43_bitmatrix.md R109, 60_exceptions.md R120). -/
theorem exec_dimsChecked {st : Staged} (hf : s.inflight = some f)
    (hbody : bodyOf i Config.platform f = checkDims f >>= rest)
    (hrest : rest (f.arg3, f.arg4) = require ok .bounds >>= fun _ => .ok st) (hok : ok = true ↔ C) :
    (¬ GoodDims f → exec i s = .next (endedWithError s 0x06#8))
    ∧ (GoodDims f → ¬ C → exec i s = .next (endedWithError s 0x02#8))
    ∧ (GoodDims f → C → exec i s = .next (State.commit s st)) := by
  have hexec := exec_eq_finish i hf
  rw [hbody, checkDims_eq] at hexec
  by_cases hdims : GoodDims f
  · rw [if_pos hdims, ok_bind, hrest] at hexec
    obtain ⟨hmiss, hfits⟩ := exec_require hexec hok
    exact ⟨absurd hdims, fun _ => hmiss, fun _ => hfits⟩
  · rw [if_neg hdims] at hexec
    exact ⟨fun _ => hexec, fun h => absurd h hdims, fun h => absurd h hdims⟩

/-- The same for a command that stores a whole matrix at ARG0, of S = ROWS COLS / 8 bytes: DIM, BOUNDS, or the bytes are
there (43_bitmatrix.md R111, R112). -/
theorem exec_storesMatrix {bs : List Byte} (hf : s.inflight = some f)
    (hbody : bodyOf i Config.platform f = checkDims f >>= rest)
    (hrest : rest (f.arg3, f.arg4) = require ok .bounds >>= fun _ => .ok (stageBytes f.arg0 bs)) (hok : ok = true ↔ C)
    (hlen : GoodDims f → bs.length = f.arg3 * f.arg4 / 8) :
    (¬ GoodDims f → exec i s = .next (endedWithError s 0x06#8))
    ∧ (GoodDims f → ¬ C → exec i s = .next (endedWithError s 0x02#8))
    ∧ (GoodDims f → C → ∃ t, exec i s = .next t ∧ WroteBytes s t 0#32 f.arg0 (f.arg3 * f.arg4 / 8)
        ∧ Memory.readBytes t.buf f.arg0 (f.arg3 * f.arg4 / 8) = bs) := by
  obtain ⟨hdim, hmiss, hfits⟩ := exec_dimsChecked hf hbody hrest hok
  exact ⟨hdim, hmiss, fun hd hC => ⟨_, hfits hd hC, wroteBytes_stageBytes s f.arg0 _ bs (hlen hd),
    readBytes_stageBytes s f.arg0 _ bs (hlen hd)⟩⟩

end DimsChecked

/-- Two checks in a row that raise one error are one check (60_exceptions.md R120). -/
theorem require_bind_require {β : Type} (a b : Bool) (e : ErrCode) (k : Unit → Except ErrCode β) :
    (require a e >>= fun _ => require b e >>= k) = require (a && b) e >>= k := by
  cases a with
  | false => rfl
  | true => rfl

/-! ### The bytes and bits of a matrix -/

/-- Every place below n * w is place j of group c, for groups of w: the bijection of 43_bitmatrix.md R111. -/
theorem exists_eq_mul_add {n w x : Nat} (h : x < n * w) : ∃ c < n, ∃ j < w, x = c * w + j :=
  have hw : 0 < w := Nat.pos_of_mul_pos_left (Nat.zero_lt_of_lt h)
  ⟨x / w, (Nat.div_lt_iff_lt_mul hw).2 h, x % w, Nat.mod_lt x hw, (Nat.div_add_mod' x w).symm⟩

/-- The other direction of `exists_eq_mul_add`. -/
theorem mul_add_lt_mul {n w c j : Nat} (hc : c < n) (hj : j < w) : c * w + j < n * w := by
  have h := Nat.mul_add_lt_mul_of_lt_of_lt hc hj
  rwa [Nat.mul_comm] at h

/-- The matrix has a whole number of bytes (43_bitmatrix.md R109). -/
theorem GoodDims.mul_mod_eight {f : InFlight} (h : GoodDims f) : f.arg3 * f.arg4 % 8 = 0 := by
  rw [Nat.mul_mod, h.1, Nat.zero_mul, Nat.zero_mod]

/-- The matrix is COLS columns of ROWS / 8 bytes (43_bitmatrix.md R107). -/
theorem GoodDims.bytes_eq {f : InFlight} (h : GoodDims f) : f.arg3 * f.arg4 / 8 = f.arg4 * (f.arg3 / 8) :=
  dims_bytes _ _ h.1

/-- A byte of a range of the snapshot (00_scope.md R11). -/
theorem getD_memRead (f : InFlight) (a : Nat) {n k : Nat} (hk : k < n) :
    (f.memRead a n).getD k 0#8 = Memory.read f.snap.buf (a + k) :=
  (read_of_readBytes _ a n k _ rfl hk).symm

/-! ### PACK -/

/-- What PACK stages: column k, of w bytes, at a + k w (43_bitmatrix.md R107, R110). -/
def columnWrites (a w n : Nat) (col : Nat → List Byte) : List (Nat × List Byte) :=
  (List.range n).map fun k => (a + k * w, col k)

section Columns

variable {w : Nat} {col : Nat → List Byte}

/-- One more column is one more write, the last one. -/
theorem columnWrites_succ (a w n : Nat) (col : Nat → List Byte) :
    columnWrites a w (n + 1) col = columnWrites a w n col ++ [(a + n * w, col n)] := by
  simp only [columnWrites, List.range_succ, List.map_append, List.map_singleton]

theorem writeAll_columnWrites_succ (m : Memory) (a w n : Nat) (col : Nat → List Byte) :
    Memory.writeAll m (columnWrites a w (n + 1) col)
      = Memory.writeBytes (Memory.writeAll m (columnWrites a w n col)) (a + n * w) (col n) := by
  rw [columnWrites_succ, Memory.writeAll, List.foldl_append]
  rfl

/-- A byte of a column: the later columns lie above it (43_bitmatrix.md R110). -/
theorem read_writeAll_columnWrites (m : Memory) (a : Nat) {n c j : Nat} (hcol : ∀ k, (col k).length = w) (hc : c < n)
    (hj : j < w) :
    Memory.read (Memory.writeAll m (columnWrites a w n col)) (a + c * w + j) = (col c).getD j 0#8 := by
  induction n with
  | zero => exact absurd hc (Nat.not_lt_zero c)
  | succ n ih =>
    have hjc : j < (col c).length := (hcol c).symm ▸ hj
    rw [writeAll_columnWrites_succ]
    rcases Nat.lt_succ_iff_lt_or_eq.1 hc with hlt | rfl
    · have hbelow := mul_add_lt_mul hlt hj
      rw [Memory.read_writeBytes_outside _ _ _ _ (by omega), ih hlt]
    · rw [Memory.read_writeBytes_inside _ _ _ j hjc, List.getD_eq_getElem _ _ hjc]

/-- A byte outside the n * w bytes at a is in no column. -/
theorem read_writeAll_columnWrites_outside (m : Memory) {a n x : Nat} (hcol : ∀ k, (col k).length = w)
    (hx : x < a ∨ a + n * w ≤ x) :
    Memory.read (Memory.writeAll m (columnWrites a w n col)) x = Memory.read m x := by
  refine Memory.read_writeAll_outside m _ x fun v hv => ?_
  obtain ⟨k, hk, rfl⟩ := List.mem_map.1 hv
  have hle : (k + 1) * w ≤ n * w := Nat.mul_le_mul_right w (List.mem_range.1 hk)
  rw [Nat.succ_mul] at hle
  simp only [hcol]
  omega

/-- A commit of columns writes the bytes of the matrix and no other (43_bitmatrix.md R107). -/
theorem wroteBytes_columnWrites (s : State) (a n : Nat) (hcol : ∀ k, (col k).length = w) :
    WroteBytes s (State.commit s { writes := columnWrites a w n col }) 0#32 a (n * w) where
  ended := endedDone_commit s _
  params := ⟨rfl, rfl, rfl⟩
  result := rfl
  bytes := fun _ hx => read_writeAll_columnWrites_outside s.buf hcol hx

end Columns

/-- PACK's second range check is made only where there is a column (43_bitmatrix.md R110). -/
theorem packRanges_iff {a n C b m : Nat} :
    (inRange Config.platform a n && (C == 0 || inRange Config.platform b m)) = true
      ↔ Fits a n ∧ (0 < C → Fits b m) := by
  rw [Bool.and_eq_true, Bool.or_eq_true, inRange_iff, inRange_iff, beq_iff_eq, Nat.pos_iff_ne_zero, ne_eq,
    ← or_iff_not_imp_left]

/-- Settles O47: the checks of R110, the two of ranges as one, and then a commit of the columns of the snapshot. -/
theorem packResult : Obligations.PackResult := by
  refine ⟨decode_encode .pack, fun s f hf => ?_⟩
  have hcol : ∀ k, (f.memRead (f.arg1 + k * f.arg5) (f.arg3 / 8)).length = f.arg3 / 8 := fun k => length_memRead f _ _
  obtain ⟨hdim, hmiss, hfits⟩ := exec_dimsChecked (i := .pack)
    (st := { writes := columnWrites f.arg0 (f.arg3 / 8) f.arg4 fun k => f.memRead (f.arg1 + k * f.arg5) (f.arg3 / 8) })
    hf rfl (require_bind_require _ _ _ _) packRanges_iff
  refine ⟨hdim, hmiss, fun hd h0 h1 => ⟨_, hfits hd ⟨h0, h1⟩, ?_, fun c hc j hj => ?_⟩⟩
  · rw [hd.bytes_eq]
    exact wroteBytes_columnWrites s f.arg0 f.arg4 hcol
  · rw [State.commit_buf, read_writeAll_columnWrites s.buf f.arg0 hcol hc hj, getD_memRead f _ hj]

/-! ### TRANSPOSE -/

/-- Bit c R + r of the second transpose is bit r C + c of the first one, which is bit c R + r of the matrix
(43_bitmatrix.md R113). -/
theorem transposeBytes_transposeBytes {R C : Nat} {M : List Byte} (h8 : R * C % 8 = 0) (hlen : M.length = R * C / 8) :
    transposeBytes C R (transposeBytes R C M) = M := by
  have h8' : C * R % 8 = 0 := by rwa [Nat.mul_comm]
  have hlen' : (transposeBytes C R (transposeBytes R C M)).length = M.length := by
    rw [length_transposeBytes, hlen, Nat.mul_comm]
  refine eq_of_getbit hlen' fun x hx => ?_
  obtain ⟨c, hc, r, hr, rfl⟩ : ∃ c < C, ∃ r < R, x = c * R + r := exists_eq_mul_add (by rw [Nat.mul_comm]; omega)
  rw [getbit_transposeBytes C R c r _ h8' hc hr, getbit_transposeBytes R C r c M h8 hr hc]

/-- TRANSPOSE: DIM, BOUNDS, or the transposed string is at ARG0 (43_bitmatrix.md R111). -/
theorem exec_transpose {s : State} {f : InFlight} (hf : s.inflight = some f) :
    (¬ GoodDims f → exec .transpose s = .next (endedWithError s 0x06#8))
    ∧ (GoodDims f → ¬ Fits f.arg0 (f.arg3 * f.arg4 / 8) → exec .transpose s = .next (endedWithError s 0x02#8))
    ∧ (GoodDims f → Fits f.arg0 (f.arg3 * f.arg4 / 8) →
      ∃ t, exec .transpose s = .next t ∧ WroteBytes s t 0#32 f.arg0 (f.arg3 * f.arg4 / 8)
        ∧ Memory.readBytes t.buf f.arg0 (f.arg3 * f.arg4 / 8)
          = transposeBytes f.arg3 f.arg4 (f.memRead f.arg0 (f.arg3 * f.arg4 / 8))) :=
  exec_storesMatrix (i := .transpose) hf rfl rfl (inRange_iff _ _ _) fun _ => length_transposeBytes _ _ _

/-- Settles O48: what `exec_transpose` says of the string, bit by bit. -/
theorem transposeResult : Obligations.TransposeResult := by
  refine ⟨decode_encode .transpose, fun s f hf => ?_⟩
  obtain ⟨hdim, hmiss, hfits⟩ := exec_transpose hf
  refine ⟨hdim, hmiss, fun hd h0 => ?_⟩
  obtain ⟨t, ht, hwrote, hread⟩ := hfits hd h0
  refine ⟨t, ht, hwrote, fun r hr c hc => ?_⟩
  have h8 := hd.mul_mod_eight
  have hout : r * f.arg4 + c < f.arg3 * f.arg4 := mul_add_lt_mul hr hc
  have hin : c * f.arg3 + r < f.arg3 * f.arg4 := Nat.mul_comm f.arg4 f.arg3 ▸ mul_add_lt_mul hc hr
  rw [← getbit_readBytes t.buf f.arg0 (f.arg3 * f.arg4 / 8) _ (by omega), hread,
    getbit_transposeBytes _ _ r c _ h8 hr hc, InFlight.memRead, getbit_readBytes _ _ _ _ (by omega)]

/-- Settles O49: the second string is the first one transposed twice, and both commands write the same range. -/
theorem transposeTwiceRestores : Obligations.TransposeTwiceRestores := by
  intro s s' t f f' hf hd h0 hexec hf' hsnap hbuf harg0 harg3 harg4
  obtain ⟨-, -, hfirst⟩ := exec_transpose hf
  obtain ⟨u, hu, hwrote, hread⟩ := hfirst hd h0
  obtain rfl : u = t := Host.Outcome.next.inj (hu.symm.trans hexec)
  obtain ⟨-, -, hsecond⟩ := exec_transpose hf'
  rw [GoodDims, InFlight.memRead, hsnap, harg0, harg3, harg4, Nat.mul_comm f.arg4, hread,
    transposeBytes_transposeBytes (hd.mul_mod_eight) (length_memRead _ _ _)] at hsecond
  obtain ⟨t', ht', hwrote', hread'⟩ := hsecond hd.symm h0
  refine ⟨t', ht', hwrote'.ended.done, fun k hk => ?_, fun x hx => ?_⟩
  · rw [read_of_readBytes _ _ _ k _ hread' hk, getD_memRead f _ hk]
  · rw [hwrote'.bytes x hx, hbuf, hwrote.bytes x hx]

/-! ### MATXOR -/

/-- MATXOR: DIM, BOUNDS, or the matrix with the vector in every column is at ARG0 (43_bitmatrix.md R112). -/
theorem exec_matxor {s : State} {f : InFlight} (hf : s.inflight = some f) :
    (¬ GoodDims f → exec .matxor s = .next (endedWithError s 0x06#8))
    ∧ (GoodDims f → ¬ (Fits f.arg0 (f.arg3 * f.arg4 / 8) ∧ Fits f.arg1 (f.arg3 / 8)) →
      exec .matxor s = .next (endedWithError s 0x02#8))
    ∧ (GoodDims f → Fits f.arg0 (f.arg3 * f.arg4 / 8) ∧ Fits f.arg1 (f.arg3 / 8) →
      ∃ t, exec .matxor s = .next t ∧ WroteBytes s t 0#32 f.arg0 (f.arg3 * f.arg4 / 8)
        ∧ Memory.readBytes t.buf f.arg0 (f.arg3 * f.arg4 / 8)
          = xorColumns f.arg4 (f.arg3 / 8) (f.memRead f.arg0 (f.arg3 * f.arg4 / 8)) (f.memRead f.arg1 (f.arg3 / 8))) :=
  exec_storesMatrix (i := .matxor) hf rfl rfl inRange_and_iff fun hd => by
    rw [hd.bytes_eq, length_xorColumns _ _ _ _ (length_memRead _ _ _) (length_memRead _ _ _)]

/-- Settles O50: what `exec_matxor` says of the string, byte by byte of each column. -/
theorem matxorResult : Obligations.MatxorResult := by
  refine ⟨decode_encode .matxor, fun s f hf => ?_⟩
  obtain ⟨hdim, hmiss, hfits⟩ := exec_matxor hf
  refine ⟨hdim, hmiss, fun hd h0 h1 => ?_⟩
  obtain ⟨t, ht, hwrote, hread⟩ := hfits hd ⟨h0, h1⟩
  refine ⟨t, ht, hwrote, fun c hc j hj => ?_⟩
  have hlt := mul_add_lt_mul hc hj
  rw [hd.bytes_eq] at hread
  rw [Nat.add_assoc, read_of_readBytes _ _ _ _ _ hread hlt,
    getD_xorColumns _ _ _ _ (length_memRead _ _ _) (length_memRead _ _ _) c j hc hj, getD_memRead f _ hlt,
    getD_memRead f _ hj]

/-- XOR of one vector into every column twice restores the matrix (43_bitmatrix.md R112). -/
theorem xorColumns_xorColumns {n w : Nat} {M V : List Byte} (hM : M.length = n * w) (hV : V.length = w) :
    xorColumns n w (xorColumns n w M V) V = M := by
  have hX := length_xorColumns n w M V hM hV
  have hXX := length_xorColumns n w _ V hX hV
  refine List.ext_getElem (hXX.trans hM.symm) fun k hk hkM => ?_
  obtain ⟨c, hc, j, hj, rfl⟩ := exists_eq_mul_add (hXX ▸ hk)
  rw [← List.getD_eq_getElem _ 0#8 hk, ← List.getD_eq_getElem _ 0#8 hkM, getD_xorColumns n w _ V hX hV c j hc hj,
    getD_xorColumns n w M V hM hV c j hc hj, BitVec.xor_assoc, BitVec.xor_self, BitVec.xor_zero]

/-- Settles O51: the second vector has the bytes of the first, and XOR with it twice restores the matrix. -/
theorem matxorTwiceRestores : Obligations.MatxorTwiceRestores := by
  intro s s' t f f' hf hd h0 h1 hexec hf' hsnap harg0 harg3 harg4 h1' hvector
  obtain ⟨-, -, hfirst⟩ := exec_matxor hf
  obtain ⟨u, hu, -, hread⟩ := hfirst hd ⟨h0, h1⟩
  obtain rfl : u = t := Host.Outcome.next.inj (hu.symm.trans hexec)
  have hlen : (f.memRead f.arg0 (f.arg3 * f.arg4 / 8)).length = f.arg4 * (f.arg3 / 8) := by
    rw [length_memRead, hd.bytes_eq]
  obtain ⟨-, -, hsecond⟩ := exec_matxor hf'
  rw [GoodDims, InFlight.memRead, InFlight.memRead, hsnap, harg0, harg3, harg4, hread, hvector, ← InFlight.memRead,
    xorColumns_xorColumns hlen (length_memRead _ _ _)] at hsecond
  obtain ⟨t', ht', hwrote, hread'⟩ := hsecond hd ⟨h0, h1'⟩
  refine ⟨t', ht', hwrote.ended.done, fun k hk => ?_⟩
  rw [read_of_readBytes _ _ _ k _ hread' hk, getD_memRead f _ hk]

end Sys2Proof.Machine

/-! # The life of a command and the host faults (60_exceptions.md)

The proofs of the statements about accept, completion, the sticky OVR flag, the IRQ line and the host faults. A step of
the engine is brought to `engineStep`, a register write to `writeReg`, a host access to the window its address reaches;
what each of these can do is said once. -/

namespace Sys2Proof.Machine

/-! ### The end of a command -/

section CommandEnd

variable {s t : State} {f : InFlight}

/-- While BUSY the engine's step ends the command, with an error or with a commit (60_exceptions.md R118). -/
theorem engineStep_busy (hf : s.inflight = some f) :
    (∃ e, engineStep s = .next (State.fail s e)) ∨ ∃ st, engineStep s = .next (State.commit s st) := by
  rcases engineStep_cases s with ⟨hidle, -⟩ | ⟨-, e, -, he⟩ | ⟨-, -, st, -, -, -, he⟩
  · rw [hf] at hidle
    cases hidle
  · exact .inl ⟨e, he⟩
  · exact .inr ⟨st, he⟩

/-- The engine never changes OVR (60_exceptions.md R121). -/
theorem engineStep_ovr (h : engineStep s = .next t) : t.ovr = s.ovr := by
  rcases engineStep_cases s with ⟨-, e⟩ | ⟨-, code, -, e⟩ | ⟨-, -, st, -, -, -, e⟩ <;> rw [e] at h <;> cases h <;> rfl

end CommandEnd

/-- Settles O4: the engine's step decodes the latched word and runs its command. -/
theorem stepRunsTheDecodedCommand : Obligations.StepRunsTheDecodedCommand := by
  intro s f i rest hnext hf hd
  rw [step_of_engineNext s rest hnext, engineStep_of_decode_ok (s := { s with pending := rest }) hf hd]

/-- Settles O52, by the phase. -/
theorem idleEngineDoesNothing : Obligations.IdleEngineDoesNothing := by
  intro s rest hnext
  rw [step_of_engineNext s rest hnext]
  refine ⟨fun hidle => ?_, fun f hf => ?_⟩
  · simp only [engineStep, fetched, hidle]
  · rcases engineStep_busy (s := { s with pending := rest }) hf with ⟨e, he⟩ | ⟨st, he⟩
    · exact ⟨_, he, rfl⟩
    · exact ⟨_, he, rfl⟩

/-- Settles O11: an end with ERR = 1 is no commit, which keeps ERR = 0, and a failure stages nothing. -/
theorem errorsArePrecise : Obligations.ErrorsArePrecise := by
  intro s t f rest hnext hf herr hstep ht
  rw [step_of_engineNext s rest hnext] at hstep
  rcases engineStep_busy (s := { s with pending := rest }) hf with ⟨e, he⟩ | ⟨st, he⟩ <;> rw [he] at hstep <;>
    cases hstep
  · rfl
  · rw [State.commit_err, herr] at ht
    cases ht

/-- Settles O12: the invariant has DONE = ERR = 0 while BUSY, so the end sets exactly one of them. -/
theorem everyCommandCompletes : Obligations.EveryCommandCompletes := by
  intro s f rest hinv hnext hf
  obtain ⟨-, -, hdone, herr, -⟩ := hinv.flight f hf
  rw [step_of_engineNext s rest hnext]
  rcases engineStep_busy (s := { s with pending := rest }) hf with ⟨e, he⟩ | ⟨st, he⟩
  · exact ⟨_, he, rfl, rfl, .inr ⟨hdone, rfl, errCodeBits_range e⟩⟩
  · exact ⟨_, he, rfl, rfl, .inl ⟨rfl, herr, hinv.errcodeZero herr⟩⟩

/-! ### Accept -/

/-- CMDCNT counts modulo 2^32 (10_state.md R24). -/
theorem add_one_eq_ofNat (x : Word) : x + 1#32 = BitVec.ofNat 32 (x.toNat + 1) := by
  rw [BitVec.ofNat_add, BitVec.ofNat_toNat, BitVec.setWidth_eq]

/-- Settles O6: the write is an accept, whose every field is named by `State.accept`. -/
theorem cmdWriteAccepts : Obligations.CmdWriteAccepts := by
  intro s w rest hw hidle
  rw [step_cmdWrite_idle hw hidle, State.accept, add_one_eq_ofNat]
  rfl

/-! ### The IRQ line -/

@[simp] theorem State.fail_irq (s : State) (e : ErrCode) : (State.fail s e).irq = s.irqEn := by
  simp [State.irq]

@[simp] theorem State.commit_irq (s : State) (st : Staged) : (State.commit s st).irq = s.irqEn := by
  simp [State.irq]

@[simp] theorem State.accept_irq (s : State) (w : Word) : (State.accept s w).irq = false := by
  simp [State.irq]

/-- An acknowledgement of DONE and ERR together lowers the line (60_exceptions.md R125). -/
theorem State.statusWrite_irq {v : Word} (hdone : v.getLsbD 1 = true) (herr : v.getLsbD 2 = true) (s : State) :
    (State.statusWrite s v).irq = false := by
  rw [State.irq, State.statusWrite_done, State.statusWrite_err, hdone, herr]
  simp

/-- The end of a command raises the line exactly when IRQ_EN = 1 (60_exceptions.md R122). -/
theorem exec_irq {i : Instr} {s t : State} {f : InFlight} (hf : s.inflight = some f) (h : exec i s = .next t) :
    t.irq = s.irqEn := by
  rcases exec_cases i s with ⟨hidle, -⟩ | ⟨-, e, -, -, he⟩ | ⟨-, st, -, -, he⟩
  case inl =>
    rw [hf] at hidle
    cases hidle
  all_goals
    rw [he] at h
    cases h
    simp

/-- Settles O15: DONE or ERR is 1 after a command's end, and both are 0 after an accept and an acknowledgement. -/
theorem irqFollowsCommandEnd : Obligations.IrqFollowsCommandEnd := by
  refine ⟨fun i s t f hf h => exec_irq hf h, fun s t w rest hw hidle h => ?_, fun s t v rest hw hv1 hv2 h => ?_⟩
  · rw [step_cmdWrite_idle hw hidle] at h
    cases h
    exact State.accept_irq _ w
  · rw [step_of_hostWrites_reg hw .status rfl (by decide) (by decide)] at h
    cases h
    exact State.statusWrite_irq hv1 hv2 _

/-! ### OVR -/

/-- Of the register writes only the W1C of STATUS bit 3 and a soft reset clear OVR (10_state.md R19, R20). -/
theorem writeReg_ovr {s : State} (h : s.ovr = true) (r : Reg) (v : Word) :
    (writeReg s r v).ovr = true ∨ (r = .status ∧ v.getLsbD 3 = true) ∨ (r = .ctrl ∧ v.getLsbD 1 = true) := by
  cases r
  case ctrl =>
    rcases State.ctrlWrite_cases s v with ⟨hv, -⟩ | ⟨-, e⟩
    · exact .inr (.inr ⟨rfl, hv⟩)
    · exact .inl (by rw [writeReg, e]; exact h)
  case status =>
    cases hv : v.getLsbD 3
    · exact .inl (by rw [writeReg, State.statusWrite_ovr, h, hv]; rfl)
    · exact .inr (.inl ⟨rfl, rfl⟩)
  case cmd =>
    rcases State.cmdWrite_cases s v with ⟨f, -, e⟩ | ⟨-, e⟩
    · exact .inl (by rw [writeReg, e])
    · exact .inl (by rw [writeReg, e]; exact h)
  all_goals exact .inl h

/-- Settles O8, by what a step can do: only a reset and a register write can clear OVR. -/
theorem ovrIsSticky : Obligations.OvrIsSticky := by
  intro s t hstep hs ht
  have hclear : t.ovr ≠ true := by simp [ht]
  rcases step_cases s t hstep with ⟨rest, hpow, -⟩ | ⟨off, v, rest, h4, hlt, hw, rfl⟩ | ⟨rest, -, he⟩
    | ⟨rest, x, rfl⟩ | ⟨rest, m, -, rfl⟩
  · exact ⟨rest, .inl hpow⟩
  · rcases writeReg_ovr (s := { s with pending := rest }) hs (regAt off) v with hkept | ⟨hr, hv⟩ | ⟨hr, hv⟩
    · exact absurd hkept hclear
    · obtain rfl := offset_of_regAt off h4 hlt .status hr (by decide)
      exact ⟨rest, .inr (.inl ⟨v, hw, hv⟩)⟩
    · obtain rfl := offset_of_regAt off h4 hlt .ctrl hr (by decide)
      exact ⟨rest, .inr (.inr ⟨v, hw, hv⟩)⟩
  · exact absurd ((engineStep_ovr he).trans hs) hclear
  · exact absurd hs hclear
  · exact absurd hs hclear

/-! ### Which accesses of the buffer window fault -/

section HostFaults

variable {c : Params} {addr off width : Nat} {op : HostOp} {s : State}

/-- The accesses of the buffer window that have no meaning (20_memory.md R46, R48, 70_reset_and_hazards.md R142). -/
theorem bufferFault_ne_none_iff :
    bufferFault c off width s ≠ none ↔
      ¬ ((width = 1 ∨ width = 2 ∨ width = 4) ∧ off % width = 0 ∧ off + width ≤ c.bufSize) ∨ s.inflight ≠ none := by
  rw [Ne, bufferFault_none_iff, bufferShape_iff, not_and_or]

theorem bufferRead_faults_iff : (∃ r, bufferRead c off width s = .fault r) ↔ bufferFault c off width s ≠ none := by
  unfold bufferRead
  cases bufferFault c off width s <;> simp

theorem bufferWrite_faults_iff {v : Word} :
    (∃ r, bufferWrite c off width v s = .fault r) ↔ bufferFault c off width s ≠ none := by
  unfold bufferWrite
  cases bufferFault c off width s <;> simp

/-- An access named by its offset is one to the buffer window, wherever the offset lies (log 16). -/
theorem hostAccess_offset_faults_iff (hop : op = .readBuf off width ∨ ∃ v, op = .writeBuf off width v) :
    (∃ r, hostAccess c op s = .fault r) ↔ bufferFault c off width s ≠ none := by
  rcases hop with rfl | ⟨v, rfl⟩
  · exact bufferRead_faults_iff
  · exact bufferWrite_faults_iff

/-! ### Which window an address reaches -/

/-- Every access that begins in the register window is one to it; its shape decides (20_memory.md R47). -/
theorem route_of_regWindow (hlt : off < 256) :
    route c (c.regBase + off) width = if registerShape off width then .register off else .badRegister := by
  have ht : touches (c.regBase + off) width c.regBase Config.regWindow = true := by
    simp only [touches, Config.regWindow, Bool.and_eq_true, decide_eq_true_eq]
    omega
  simp [route, ht]

/-- An access that begins in the buffer window is one to it, or runs beyond its end into the register window
(20_memory.md R58). -/
theorem route_of_bufWindow (hlt : off < c.bufSize) :
    route c (c.bufBase + off) width = .buffer off
    ∨ (route c (c.bufBase + off) width = .badRegister ∧ c.bufSize < off + width) := by
  rcases ht : touches (c.bufBase + off) width c.regBase Config.regWindow
  case false => exact .inl (route_of_buffer c off width hlt ht)
  case true =>
    have hreach := ht
    simp only [touches, Config.regWindow, Bool.and_eq_true, decide_eq_true_eq] at hreach
    have hdisjoint := Params.windows_disjoint c
    have hbelow : ¬ c.regBase ≤ c.bufBase + off := by omega
    exact .inr ⟨by simp [route, ht, hbelow], by omega⟩

/-- An access clear of both windows does not reach the engine (60_exceptions.md R127). -/
theorem route_outside (hwidth : 1 ≤ width) (hreg : addr + width ≤ c.regBase ∨ c.regBase + 256 ≤ addr)
    (hbuf : addr + width ≤ c.bufBase ∨ c.bufBase + c.bufSize ≤ addr) : route c addr width = .outside := by
  have htreg : touches addr width c.regBase Config.regWindow = false := by
    simp only [touches, Config.regWindow, Bool.and_eq_false_iff, decide_eq_false_iff_not]
    omega
  have htbuf : touches addr width c.bufBase c.bufSize = false := by
    simp only [touches, Bool.and_eq_false_iff, decide_eq_false_iff_not]
    omega
  simp [route, htreg, htbuf]

/-! ### Which accesses by address fault -/

/-- What the route of an access by address says of its fault. -/
def Route.Faults (c : Params) (width : Nat) (s : State) : Route → Prop
  | .register _ | .outside => False
  | .buffer off => bufferFault c off width s ≠ none
  | .badRegister | .badBuffer => True

/-- Reads and writes by address fault alike. -/
theorem hostAccess_address_faults_iff (hop : op = .read addr width ∨ ∃ v, op = .write addr width v) :
    (∃ r, hostAccess c op s = .fault r) ↔ (route c addr width).Faults c width s := by
  rcases hop with rfl | ⟨v, rfl⟩
  · simp only [hostAccess, hostRead]
    cases route c addr width
    case buffer off => exact bufferRead_faults_iff
    all_goals simp [Route.Faults]
  · simp only [hostAccess, hostWrite]
    cases route c addr width
    case buffer off => exact bufferWrite_faults_iff
    all_goals simp [Route.Faults]

theorem hostAccess_regWindow_faults_iff
    (hop : op = .read (c.regBase + off) width ∨ ∃ v, op = .write (c.regBase + off) width v) (hlt : off < 256) :
    (∃ r, hostAccess c op s = .fault r) ↔ ¬ (width = 4 ∧ off % 4 = 0) := by
  have hshape : registerShape off width = true ↔ width = 4 ∧ off % 4 = 0 := by simp [registerShape]
  rw [hostAccess_address_faults_iff hop, route_of_regWindow hlt, ← hshape]
  cases registerShape off width <;> simp [Route.Faults]

/-- An access that runs out of the buffer window into the register window breaks the buffer's shape as well, so the one
condition covers both routes. -/
theorem hostAccess_bufWindow_faults_iff
    (hop : op = .read (c.bufBase + off) width ∨ ∃ v, op = .write (c.bufBase + off) width v) (hlt : off < c.bufSize) :
    (∃ r, hostAccess c op s = .fault r) ↔ bufferFault c off width s ≠ none := by
  rw [hostAccess_address_faults_iff hop]
  rcases route_of_bufWindow (width := width) hlt with hroute | ⟨hroute, hbeyond⟩ <;> rw [hroute]
  · rfl
  · have hfault : bufferFault c off width s ≠ none :=
      bufferFault_ne_none_iff.2 (.inl fun ⟨_, _, hfits⟩ => absurd hfits (not_le.2 hbeyond))
    exact iff_of_true trivial hfault

theorem hostAccess_outside (hop : op = .read addr width ∨ ∃ v, op = .write addr width v)
    (hroute : route c addr width = .outside) : hostAccess c op s = .next s := by
  rcases hop with rfl | ⟨v, rfl⟩
  · simp only [hostAccess, hostRead, hroute]
  · simp only [hostAccess, hostWrite, hroute]

end HostFaults

/-- Settles O22: each form of access is brought to the window it reaches. -/
theorem hostFaultsAreThese : Obligations.HostFaultsAreThese := by
  intro s rest op hnext
  rw [step_of_host hnext]
  refine ⟨fun addr width hwidth hop => ⟨?_, ?_, fun hreg hbuf => ?_⟩, fun off width hop => ?_⟩
  · rintro off rfl hlt
    exact hostAccess_regWindow_faults_iff hop hlt
  · rintro off rfl hlt
    exact (hostAccess_bufWindow_faults_iff hop hlt).trans bufferFault_ne_none_iff
  · exact hostAccess_outside hop (route_outside hwidth hreg hbuf)
  · exact (hostAccess_offset_faults_iff hop).trans bufferFault_ne_none_iff

end Sys2Proof.Machine

/-! # Reset (70_reset_and_hazards.md)

The proofs of the statements about the reset state and the two ways into it. A soft reset by CTRL and a power-on reset
are both brought to `State.softReset`, which does not look at the phase. -/

namespace Sys2Proof.Machine

/-! ### The ways into the reset state -/

/-- Bit 1 of a write to CTRL alone decides that it is a soft reset; bit 0 is not looked at (10_state.md R19). -/
theorem State.ctrlWrite_of_bit1 {v : Word} (hv : v.getLsbD 1 = true) (s : State) :
    State.ctrlWrite s v = State.softReset s := by
  rcases State.ctrlWrite_cases s v with ⟨-, e⟩ | ⟨hclear, -⟩
  · exact e
  · rw [hv] at hclear
    cases hclear

theorem step_of_powerOn {s : State} {rest : List Event} (h : s.pending = .powerOn :: rest) :
    step s = .next (State.softReset { s with pending := rest }) := by
  unfold step
  rw [h]

/-- Settles O9: each way in is a step to `State.softReset`, whatever is in flight. -/
theorem resetFromAnyPhase : Obligations.ResetFromAnyPhase := by
  intro s rest
  refine ⟨fun v hw hv => ?_, fun hpow => ?_⟩
  · rw [step_of_hostWrites_reg hw .ctrl rfl (by decide) (by decide), writeReg, State.ctrlWrite_of_bit1 hv]
    rfl
  · rw [step_of_powerOn hpow]
    rfl

/-! ### The reset state -/

@[simp] theorem State.reset_ctrlWord : State.ctrlWord State.reset = 0#32 := by
  rw [State.ctrlWord_eq]
  rfl

/-- Every field of STATUS is 0, and so is their sum. -/
@[simp] theorem State.reset_statusWord : State.statusWord State.reset = 0#32 :=
  BitVec.eq_of_toNat_eq (State.toNat_statusWord State.reset)

@[simp] theorem State.reset_argValue (a : ArgName) : argValue State.reset.args a = 0#32 := by
  cases a <;> rfl

/-- The reset buffer lists no byte, so each reads 0x00. -/
@[simp] theorem State.reset_read (x : Nat) : Memory.read State.reset.buf x = 0#8 :=
  Memory.read_of_not_mem _ x nofun

@[simp] theorem State.reset_irq : State.reset.irq = false := rfl

/-- Settles O10, row by row of the table; the rows closed by `rfl` are constants, or fields of `State.reset` as they
stand. -/
theorem resetStateIsTheTable : Obligations.ResetStateIsTheTable := by
  refine ⟨?id, ?version, ?ctrl, ?status, ?cmd, ?args, ?result, ?cmdcnt, ?bufsize, ?hashlen, ?reserved, ?p, ?q, ?g,
    ?buf, ?inflight, ?irq⟩
  case ctrl => exact State.reset_ctrlWord
  case status => exact State.reset_statusWord
  case args => exact State.reset_argValue
  case buf => exact State.reset_read
  case irq => exact State.reset_irq
  all_goals rfl

/-- Settles O25: no flag is set and nothing is in flight. -/
theorem resetHasTheInvariant : Obligations.ResetHasTheInvariant := State.reset_inv

end Sys2Proof.Machine
